-- ==== Sys2Proof/Word.lean ====
section
/-! DEFINITION. The word and the byte of the core (spec 00_scope.md R7, R9, R11). -/

namespace Sys2Proof

/-- A 32-bit word: the content of a register, an address, an instruction (R7, R11). Its arithmetic is
unsigned and modulo 2^32, which is what `BitVec 32` gives. -/
abbrev Word := BitVec 32

/-- A byte, the smallest addressable unit (R7, R32). -/
abbrev Byte := BitVec 8

end Sys2Proof
end

