-- ==== Sys2Proof/Config.lean ====
section
/-! DEFINITION. The parameters and fixed values of the core (spec 00_scope.md R7, R8; 10_state.md R17, R22). -/

namespace Sys2Proof

/-- What general registers 1 to 31 hold at reset: the parameter `GPR_RESET_POLICY` (R8, R17). -/
inductive GprResetPolicy where
  /-- They hold no value the spec names. -/
  | unwritten
  /-- Each holds the development poison pattern. -/
  | poison
  /-- Each holds 0. -/
  | zero
  deriving DecidableEq, Repr

/-- DESIGN CHOICE (log entry 4), safe. What register `i` holds under the policy `unwritten`: a free value with no
body, so that no proof can lean on it. -/
opaque Config.unwrittenGpr : Nat → Word

/-- The development poison pattern, 0x00FACADE (R17). -/
def Config.gprPoison : Word := 0x00FACADE#32

/-- The value of general register `i` (1 to 31) at reset under a policy (the table of R17). -/
def Config.gprAtReset : GprResetPolicy → Nat → Word
  | .unwritten, i => Config.unwrittenGpr i
  | .poison, _ => Config.gprPoison
  | .zero, _ => 0#32

/-- The reset vector, a logical address (R22). -/
def Config.resetVector : Word := 0xBFC00000#32

/-- How many bytes the external loader hands over: the length of `ROM_IMAGE` (R8, R119). -/
def Config.romImageBytes : Nat := 524288

end Sys2Proof
end

