-- ==== Sys2Proof/Machine/State.lean ====
section
/-! DEFINITION. The state of the core, its faults, and its value at reset (spec 10_state.md R13 to R31; 60_exceptions.md
R97; 70_reset_and_hazards.md R114). -/

namespace Sys2Proof.Machine

/-- Why a bus access failed (R97). -/
inductive BusFaultKind where
  /-- The logical address is not a multiple of 4 (R40). -/
  | unaligned
  /-- The address has no backing for this access (R37, R41, R42). -/
  | unmapped
  deriving DecidableEq, Repr

/-- Which access failed (R97): the fetch of a cycle, or the store of SW. -/
inductive BusAccess where
  /-- Instruction fetch, the only user of the bus `load` (R41). -/
  | fetch
  /-- SW, the only user of the bus `store` (R42). -/
  | store
  deriving DecidableEq, Repr

/-- The three faults of the core with the information each carries (R97). A fault that a cycle raises is stored in the
status of the next state (R98); `step` answers with it from a faulted state, which has no cycle (R74). -/
inductive Fault where
  /-- Raised by the fetch of a cycle and by SW, on an unaligned address or one with no backing (R99). Safe: the spec
  gives this stop. -/
  | bus (kind : BusFaultKind) (addr : Word) (access : BusAccess)
  /-- Raised by SW, on a store to offset 0 or 4 of the hardware-register window (R44, R99). Safe: the spec gives this
  stop. -/
  | expansionMapOverwrite (offset : Nat) (addr value : Word)
  /-- Raised by the cycle when the retiring word is no instruction (R82, R99); it carries the raw word. Safe: the spec
  gives this stop. -/
  | illegalInstruction (word : Word)
  deriving DecidableEq, Repr

/-- Why the model declines to give a meaning. -/
inductive Refusal where
  /-- Raised by an arm of `exec` that has no meaning yet; no arm has it now. Safe: the model stops. -/
  | notModelled (mnemonic : String)
  deriving DecidableEq, Repr

/-- The lookahead slot: the instruction word already fetched and not yet executed (R24, R25). -/
inductive Slot where
  /-- Nothing has been fetched yet: the first cycle after reset only (R25, R83). -/
  | empty
  /-- The word that the next cycle retires. -/
  | full (w : Word)
  deriving DecidableEq, Repr

/-- Running, or stopped for good by a fault (R26). -/
inductive RunStatus where
  /-- Cycles run. -/
  | running
  /-- The fault that stopped the core; no cycle runs (R74). -/
  | faulted (f : Fault)
  deriving DecidableEq, Repr

/-- Byte storage by physical address, the addresses strictly rising and no entry equal to what an unlisted address
reads as (log entry 7). -/
abbrev Memory := List Host.Cell

/-- What an unlisted physical address reads as: main RAM, scratchpad and hardware-register bytes are 0 at reset (R29).
For the boot ROM it makes the image of zeros the one listed by nothing: DESIGN CHOICE (log entry 2), unsafe. -/
def Memory.unlisted : Byte := 0#8

/-- The whole state of the core: the record of R31. The four buffers of R29 are windows of `mem` at their physical
base addresses (R34). -/
structure State where
  /-- `x[0]` to `x[31]` (R13). Cell 0 is never read: register 0 is 0 by `State.readReg` (R16). -/
  regs : Vector Word 32
  /-- The auxiliary register `hi` (R19). -/
  hi : Word
  /-- The auxiliary register `lo` (R19). -/
  lo : Word
  /-- The address of the next instruction to fetch (R21). -/
  pc : Word
  /-- The lookahead slot (R24). -/
  slot : Slot
  /-- Running or faulted (R26). -/
  status : RunStatus
  /-- The buffers `ram`, `scratch`, `hwreg` and `rom` (R29). -/
  mem : Memory
  deriving DecidableEq, Repr

/-- The state at reset under a `GPR_RESET_POLICY`, before the loader supplies `ROM_IMAGE` (R31, R114); the boot ROM
reads 0 until then. -/
def State.resetUnder (policy : GprResetPolicy) : State where
  regs := Vector.ofFn fun i => if i.val = 0 then 0#32 else Config.gprAtReset policy i.val
  hi := 0#32
  lo := 0#32
  pc := Config.resetVector
  slot := .empty
  status := .running
  mem := []

/-- The machine right after reset (R31, R114). Registers 1 to 31 follow the policy `Zero`: DESIGN CHOICE (log entry 1),
unsafe. The boot ROM is the image of zeros: DESIGN CHOICE (log entry 2), unsafe. -/
def State.reset : State := State.resetUnder .zero

/-! ### Updates, one field or one joint change at a time -/

/-- Write the program counter. -/
def State.setPc (s : State) (v : Word) : State := { s with pc := v }

/-- Write the lookahead slot. -/
def State.setSlot (s : State) (x : Slot) : State := { s with slot := x }

/-- Write the run status. -/
def State.setStatus (s : State) (x : RunStatus) : State := { s with status := x }

/-- Replace the byte storage. -/
def State.setMem (s : State) (m : Memory) : State := { s with mem := m }

/-- Replace the register file. -/
def State.setRegs (s : State) (r : Vector Word 32) : State := { s with regs := r }

end Sys2Proof.Machine
end

