-- ==== Sys2Proof/Machine/Flags.lean ====
section
/-! DEFINITION. The flags of the core: there are none (spec 10_state.md R27; 41_alu.md R87). -/

namespace Sys2Proof.Machine

/-- The flags, condition codes and predicate registers of the core: an empty list of names, since the core has none
and no instruction sets or reads one (R27). -/
inductive Flag where
  deriving DecidableEq, Repr

/-- The value of a flag in a state; there is no flag to ask for (R27). -/
def State.flag (_ : State) (f : Flag) : Bool := nomatch f

end Sys2Proof.Machine
end

