-- ==== Sys2Proof/Syntax.lean ====
section
/-! DEFINITION. The six instructions of the core as syntax (spec 30_encoding.md R66, R67; opcode_table.json). -/

namespace Sys2Proof

/-- A decoded instruction, one constructor per row of the opcode table, with the operands that `Decode` of R67 gives
it. Register numbers and the shift amount are numbers, checked by `Instr.wf`; an immediate and a jump target are bit
fields, since the rules extend and shift them. The `rs` field of SLL and of LUI is no operand (R69). -/
inductive Instr where
  /-- SLL $rd, $rt, shamt (R88). -/
  | sll (rd rt shamt : Nat)
  /-- LUI $rt, imm (R89). -/
  | lui (rt : Nat) (imm : BitVec 16)
  /-- ORI $rt, $rs, imm (R90). -/
  | ori (rs rt : Nat) (imm : BitVec 16)
  /-- ADDIU $rt, $rs, imm (R91). -/
  | addiu (rs rt : Nat) (imm : BitVec 16)
  /-- SW $rt, imm($rs) (R92). -/
  | sw (rs rt : Nat) (imm : BitVec 16)
  /-- J target (R94). -/
  | j (target : BitVec 26)
  deriving DecidableEq, Repr

/-- The registers an instruction reads (the table of 10_state.md R18). -/
def Instr.reads : Instr → List Nat
  | .sll _ rt _ => [rt]
  | .lui _ _ => []
  | .ori rs _ _ => [rs]
  | .addiu rs _ _ => [rs]
  | .sw rs rt _ => [rs, rt]
  | .j _ => []

/-- The registers an instruction writes (the table of 10_state.md R18). -/
def Instr.writes : Instr → List Nat
  | .sll rd _ _ => [rd]
  | .lui rt _ => [rt]
  | .ori _ rt _ => [rt]
  | .addiu _ rt _ => [rt]
  | .sw _ _ _ => []
  | .j _ => []

end Sys2Proof
end

