-- ==== Sys2Proof/WellFormed.lean ====
section
/-! DEFINITION. Which instruction terms the encoding can express (spec 30_encoding.md R58, R64). -/

namespace Sys2Proof

/-- A register operand is a 5-bit index (R58, R64). -/
def isRegIndex (i : Nat) : Bool := decide (i < 32)

/-- A shift amount is a 5-bit unsigned number (R64). -/
def isShiftAmount (n : Nat) : Bool := decide (n < 32)

/-- The operands fit the fields of the encoding. An immediate and a target fit by their types. -/
def Instr.wf : Instr → Bool
  | .sll rd rt shamt => isRegIndex rd && isRegIndex rt && isShiftAmount shamt
  | .lui rt _ => isRegIndex rt
  | .ori rs rt _ => isRegIndex rs && isRegIndex rt
  | .addiu rs rt _ => isRegIndex rs && isRegIndex rt
  | .sw rs rt _ => isRegIndex rs && isRegIndex rt
  | .j _ => true

end Sys2Proof
end

