-- ==== Sys2Proof/Decode.lean ====
section
/-! DEFINITION. The instruction codec: byte order, field extraction, decoder and encoder (spec 30_encoding.md R57 to
R71; 20_memory.md R38). -/

namespace Sys2Proof

/-! ### Byte order (R38) -/

/-- The little-endian word of four bytes, the byte at the lowest address first (R38). -/
def wordOfBytes (b0 b1 b2 b3 : Byte) : Word := b3 ++ b2 ++ b1 ++ b0

/-- Byte `k` of a word in little-endian order: bits `8k+7` to `8k` (R38). -/
def byteOfWord (v : Word) (k : Nat) : Byte := v.extractLsb' (8 * k) 8

/-- The four bytes of a word, in the order they lie in memory (R38). -/
def bytesOfWord (v : Word) : List Byte := [byteOfWord v 0, byteOfWord v 1, byteOfWord v 2, byteOfWord v 3]

/-! ### Fields (R58) -/

/-- Bits 31 to 26. -/
def fieldOpcode (w : Word) : BitVec 6 := w.extractLsb' 26 6
/-- Bits 25 to 21. -/
def fieldRs (w : Word) : BitVec 5 := w.extractLsb' 21 5
/-- Bits 20 to 16. -/
def fieldRt (w : Word) : BitVec 5 := w.extractLsb' 16 5
/-- Bits 15 to 11. -/
def fieldRd (w : Word) : BitVec 5 := w.extractLsb' 11 5
/-- Bits 10 to 6. -/
def fieldShamt (w : Word) : BitVec 5 := w.extractLsb' 6 5
/-- Bits 5 to 0. -/
def fieldFunct (w : Word) : BitVec 6 := w.extractLsb' 0 6
/-- Bits 15 to 0. -/
def fieldImmediate (w : Word) : BitVec 16 := w.extractLsb' 0 16
/-- Bits 25 to 0. -/
def fieldTarget (w : Word) : BitVec 26 := w.extractLsb' 0 26

/-! ### Opcode map (R65, R66). UNVERIFIED (log entry 6): the spec marks these numbers as its own general knowledge. -/

/-- SPECIAL, the one opcode of the R-format family (R65). -/
def opSpecial : BitVec 6 := 0x00#6
/-- The opcode of J (R66). -/
def opJ : BitVec 6 := 0x02#6
/-- The opcode of ADDIU (R66). -/
def opAddiu : BitVec 6 := 0x09#6
/-- The opcode of ORI (R66). -/
def opOri : BitVec 6 := 0x0D#6
/-- The opcode of LUI (R66). -/
def opLui : BitVec 6 := 0x0F#6
/-- The opcode of SW (R66). -/
def opSw : BitVec 6 := 0x2B#6
/-- The funct of SLL under SPECIAL (R66). -/
def functSll : BitVec 6 := 0x00#6

/-! ### Decoder (R67) -/

/-- What a word decodes to: one instruction, or the explicit error variant, which carries the raw word (R67). -/
inductive Decoded where
  /-- One of the six instructions. -/
  | instr (i : Instr)
  /-- An illegal instruction word (R68). -/
  | illegal (w : Word)
  deriving DecidableEq, Repr

/-- `Decode` of R67, total on every word. -/
def decodeWord (w : Word) : Decoded :=
  if fieldOpcode w = opSpecial then
    if fieldFunct w = functSll then
      .instr (.sll (fieldRd w).toNat (fieldRt w).toNat (fieldShamt w).toNat)
    else .illegal w
  else if fieldOpcode w = opJ then .instr (.j (fieldTarget w))
  else if fieldOpcode w = opAddiu then .instr (.addiu (fieldRs w).toNat (fieldRt w).toNat (fieldImmediate w))
  else if fieldOpcode w = opOri then .instr (.ori (fieldRs w).toNat (fieldRt w).toNat (fieldImmediate w))
  else if fieldOpcode w = opLui then .instr (.lui (fieldRt w).toNat (fieldImmediate w))
  else if fieldOpcode w = opSw then .instr (.sw (fieldRs w).toNat (fieldRt w).toNat (fieldImmediate w))
  else .illegal w

/-- What a byte string decodes to: an instruction and the bytes after it, or a rejection by name. -/
inductive DecodedBytes where
  /-- The instruction of the first four bytes, and the bytes after them (R57). -/
  | instr (i : Instr) (rest : List Byte)
  /-- The first four bytes are an illegal instruction word (R68). -/
  | illegal (w : Word)
  /-- Fewer than the four bytes of an instruction (R57). -/
  | truncated (bytes : List Byte)
  deriving DecidableEq, Repr

/-- Decode the instruction at the front of a byte string: one little-endian word (R57). -/
def decodeBytes : List Byte → DecodedBytes
  | b0 :: b1 :: b2 :: b3 :: rest =>
    match decodeWord (wordOfBytes b0 b1 b2 b3) with
    | .instr i => .instr i rest
    | .illegal w => .illegal w
  | bytes => .truncated bytes

/-- The word whose low `nbits` bits are those of `w` and whose other bits are 0. -/
def tableWord (nbits w : Nat) : Word := BitVec.ofNat 32 (w % 2 ^ nbits)

/-- The instruction that the decoder reads from the opcode table's bits `w` (bit 0 the least significant bit of the
first word), laid out as memory holds it. -/
def decodeTableWord (nbits w : Nat) : Option Instr :=
  match decodeBytes (bytesOfWord (tableWord nbits w)) with
  | .instr i _ => some i
  | .illegal _ => none
  | .truncated _ => none

/-! ### Encoder (R59, R66, R71) -/

/-- The R-format layout (R59). -/
def formatR (op : BitVec 6) (rs rt rd shamt : BitVec 5) (funct : BitVec 6) : Word :=
  op ++ rs ++ rt ++ rd ++ shamt ++ funct

/-- The I-format layout (R59). -/
def formatI (op : BitVec 6) (rs rt : BitVec 5) (imm : BitVec 16) : Word := op ++ rs ++ rt ++ imm

/-- The J-format layout (R59). -/
def formatJ (op : BitVec 6) (target : BitVec 26) : Word := op ++ target

/-- A register number or shift amount as its 5-bit field. -/
def field5 (n : Nat) : BitVec 5 := BitVec.ofNat 5 n

/-- The word of an instruction, from the encodings of R66 and R71. The unused `rs` field of SLL and LUI is 0. -/
def encode : Instr → Word
  | .sll rd rt shamt => formatR opSpecial 0#5 (field5 rt) (field5 rd) (field5 shamt) functSll
  | .lui rt imm => formatI opLui 0#5 (field5 rt) imm
  | .ori rs rt imm => formatI opOri (field5 rs) (field5 rt) imm
  | .addiu rs rt imm => formatI opAddiu (field5 rs) (field5 rt) imm
  | .sw rs rt imm => formatI opSw (field5 rs) (field5 rt) imm
  | .j target => formatJ opJ target

/-- The bytes of an instruction, in the order they lie in memory. -/
def encodeBytes (i : Instr) : List Byte := bytesOfWord (encode i)

/-- The mask of the instruction's row of the opcode table: the bits that select it (R66). -/
def Instr.tableMask : Instr → Word
  | .sll _ _ _ => 0xFC00003F#32
  | .lui _ _ => 0xFC000000#32
  | .ori _ _ _ => 0xFC000000#32
  | .addiu _ _ _ => 0xFC000000#32
  | .sw _ _ _ => 0xFC000000#32
  | .j _ => 0xFC000000#32

/-- The match value of the instruction's row of the opcode table (R66). -/
def Instr.tableMatch : Instr → Word
  | .sll _ _ _ => 0x00000000#32
  | .lui _ _ => 0x3C000000#32
  | .ori _ _ _ => 0x34000000#32
  | .addiu _ _ _ => 0x24000000#32
  | .sw _ _ _ => 0xAC000000#32
  | .j _ => 0x08000000#32

/-- The bits of an instruction's word that decoding reads: all but the unused `rs` field of SLL and LUI (R69). -/
def Instr.readMask : Instr → Word
  | .sll _ _ _ => 0xFC1FFFFF#32
  | .lui _ _ => 0xFC1FFFFF#32
  | .ori _ _ _ => 0xFFFFFFFF#32
  | .addiu _ _ _ => 0xFFFFFFFF#32
  | .sw _ _ _ => 0xFFFFFFFF#32
  | .j _ => 0xFFFFFFFF#32

end Sys2Proof
end

