-- ==== Sys2Proof/Machine/Operands.lean ====
section
/-! DEFINITION. Operand access: registers, immediates, the store address and the jump target (spec 10_state.md R14,
R16; 30_encoding.md R61 to R64; 42_store.md R93). -/

namespace Sys2Proof.Machine

/-! ### Registers -/

/-- `x[i]`: register 0 reads as 0 (R14, R16). No index of 32 or more can be encoded (R14); such a read answers 0
(DESIGN CHOICE, log entry 8, safe). -/
def State.readReg (s : State) (i : Nat) : Word :=
  if i = 0 then 0#32 else s.regs.getD i 0#32

/-- `WriteReg(i, v)`, the single write chokepoint: a write to register 0 is discarded (R16). No index of 32 or more can
be encoded; such a write is discarded (DESIGN CHOICE, log entry 8, safe). -/
def State.writeReg (s : State) (i : Nat) (v : Word) : State :=
  if i = 0 then s else s.setRegs (s.regs.setIfInBounds i v)

/-! ### Immediates -/

/-- `sext_16`: bit 15 is copied into bits 31 to 16 (R61). -/
def sext16 (imm : BitVec 16) : Word := imm.signExtend 32

/-- `zext_16`: bits 31 to 16 are 0 (R62). -/
def zext16 (imm : BitVec 16) : Word := imm.zeroExtend 32

/-- `imm ++ 0x0000`: the immediate in the upper half, the lower half 0 (R62). -/
def upperImmediate (imm : BitVec 16) : Word := imm ++ 0#16

/-! ### Addresses -/

/-- Base register plus sign-extended offset, wrapping: the only data addressing mode (R92, R93). -/
def State.effectiveAddress (s : State) (rs : Nat) (imm : BitVec 16) : Word := s.readReg rs + sext16 imm

/-- The target of a jump: the top 4 bits of the program counter during the execute step, and the target field shifted
left by 2 (R63, R94). -/
def jumpTarget (pc : Word) (target : BitVec 26) : Word :=
  (pc &&& 0xF0000000#32) ||| (target.zeroExtend 32 <<< 2)

end Sys2Proof.Machine
end

