-- ==== Sys2Proof/Machine/Ops.lean ====
section
/-! DEFINITION. Byte storage, the address map, the bus `load` and `store`, and raising a fault (spec 20_memory.md R32 to
R49; 60_exceptions.md R97 to R105). -/

namespace Sys2Proof.Machine

/-! ### Byte storage -/

/-- The canonical form: addresses strictly rising, no entry equal to what an unlisted address reads as (log entry 7). -/
def Memory.wf : Memory → Bool
  | [] => true
  | c :: rest => decide (c.2 ≠ Memory.unlisted) && rest.all (fun d => decide (c.1 < d.1)) && Memory.wf rest

/-- The byte at a physical address. -/
def Memory.read : Memory → Nat → Byte
  | [], _ => Memory.unlisted
  | c :: rest, a => if a = c.1 then c.2 else Memory.read rest a

/-- Put a byte at a physical address, in front of a rest whose addresses are all higher. -/
def Memory.push (m : Memory) (a : Nat) (v : Byte) : Memory :=
  if v = Memory.unlisted then m else (a, v) :: m

/-- Write the byte at a physical address, keeping the canonical form. -/
def Memory.write : Memory → Nat → Byte → Memory
  | [], a, v => Memory.push [] a v
  | c :: rest, a, v =>
    if a < c.1 then Memory.push (c :: rest) a v
    else if a = c.1 then Memory.push rest a v
    else c :: Memory.write rest a v

/-- The little-endian word at physical address `p` (R38). -/
def Memory.readWord (m : Memory) (p : Nat) : Word :=
  wordOfBytes (m.read p) (m.read (p + 1)) (m.read (p + 2)) (m.read (p + 3))

/-- Write the four little-endian bytes of a word at physical address `p` (R38). -/
def Memory.writeWord (m : Memory) (p : Nat) (v : Word) : Memory :=
  (((m.write p (byteOfWord v 0)).write (p + 1) (byteOfWord v 1)).write (p + 2) (byteOfWord v 2)).write (p + 3)
    (byteOfWord v 3)

/-! ### The address map (R33 to R37) -/

/-- The four backed regions (R34). -/
inductive Region where
  /-- Main RAM. -/
  | ram
  /-- The scratchpad. -/
  | scratch
  /-- The hardware-register window. -/
  | hwreg
  /-- The boot ROM. -/
  | rom
  deriving DecidableEq, Repr

/-- The physical base of a region (R34). -/
def Region.base : Region → Nat
  | .ram => 0x00000000
  | .scratch => 0x1F800000
  | .hwreg => 0x1F801000
  | .rom => 0x1FC00000

/-- How many bytes of address space a region covers (R34). -/
def Region.size : Region → Nat
  | .ram => 0x200000
  | .scratch => 0x400
  | .hwreg => 0x2000
  | .rom => 0x80000

/-- How many bytes of storage a region has (R29): the window covers 8 KiB and stores 36 bytes. -/
def Region.storage : Region → Nat
  | .ram => 2097152
  | .scratch => 1024
  | .hwreg => 36
  | .rom => 524288

/-- The physical address lies in the region. -/
def Region.contains (r : Region) (p : Nat) : Bool := decide (r.base ≤ p) && decide (p < r.base + r.size)

/-- The segment of a logical address: bits 31 to 29 (R33). -/
def segment (a : Word) : BitVec 3 := a.extractLsb' 29 3

/-- `Phys`: segments 0b000, 0b100 and 0b101 are masked to one physical space, the other five have no backing (R33). -/
def phys (a : Word) : Option Nat :=
  if segment a = 0b000#3 ∨ segment a = 0b100#3 ∨ segment a = 0b101#3 then some (a &&& 0x1FFFFFFF#32).toNat else none

/-- The search of R35 through a list of regions. -/
def resolveAmong : List Region → Nat → Option (Region × Nat)
  | [], _ => none
  | r :: rest, p => if r.contains p then some (r, p - r.base) else resolveAmong rest p

/-- `Resolve`: the region that contains a physical address, and the offset within it (R35). -/
def resolve (p : Nat) : Option (Region × Nat) := resolveAmong [.ram, .scratch, .hwreg, .rom] p

/-- The region and offset behind a logical address: masking, then the region test (R33, R35). -/
def locate (a : Word) : Option (Region × Nat) :=
  match phys a with
  | none => none
  | some p => resolve p

/-- The address is a multiple of 4: the test made first, on the logical address (R40). -/
def aligned (a : Word) : Bool := decide (a.extractLsb' 0 2 = 0#2)

/-! ### The bus (R41, R42) -/

/-- Byte `o` of a region's buffer (R29). -/
def State.regionByte (s : State) (r : Region) (o : Nat) : Byte := s.mem.read (r.base + o)

/-- The little-endian word at offset `o` of a region's buffer (R38). -/
def State.regionWord (s : State) (r : Region) (o : Nat) : Word := s.mem.readWord (r.base + o)

/-- Write the word at offset `o` of a region's buffer (R38). -/
def State.writeRegionWord (s : State) (r : Region) (o : Nat) (v : Word) : State :=
  s.setMem (s.mem.writeWord (r.base + o) v)

/-- `MemRead(a, 4)`, the bus `load` (R41): its only user is instruction fetch. It changes no state. -/
def memRead (s : State) (a : Word) : Except Fault Word :=
  if aligned a then
    match locate a with
    | some (.ram, o) => .ok (s.regionWord .ram o)
    | some (.rom, o) => .ok (s.regionWord .rom o)
    | some (.scratch, _) => .error (.bus .unmapped a .fetch)
    | some (.hwreg, _) => .error (.bus .unmapped a .fetch)
    | none => .error (.bus .unmapped a .fetch)
  else .error (.bus .unaligned a .fetch)

/-- The offset is that of one of the two expansion-base registers (R44). -/
def isExpansionBase (o : Nat) : Bool := decide (o = 0) || decide (o = 4)

/-- `MemWrite(a, 4, v)`, the bus `store` (R42): its only user is SW. A store that raises writes nothing. -/
def memWrite (s : State) (a v : Word) : Except Fault State :=
  if aligned a then
    match locate a with
    | some (.ram, o) => .ok (s.writeRegionWord .ram o v)
    | some (.scratch, o) => .ok (s.writeRegionWord .scratch o v)
    | some (.hwreg, o) => if isExpansionBase o then .error (.expansionMapOverwrite o a v) else .ok s
    | some (.rom, _) => .error (.bus .unmapped a .store)
    | none => .error (.bus .unmapped a .store)
  else .error (.bus .unaligned a .store)

/-! ### Taking a fault (R98, R100, R104) -/

/-- `raise f`: the cycle ends at once, keeping the steps before it, and the status becomes `Faulted(f)` (R98). It saves
nothing else, changes no mode and transfers control nowhere (R104); there is no return from it (R105). -/
def raise (f : Fault) (s : State) : Host.Outcome State Fault Refusal := .next (s.setStatus (.faulted f))

/-- The number of a fault, for a caller that needs numbers (R102). -/
def Fault.code : Fault → Nat
  | .bus _ _ _ => 0
  | .expansionMapOverwrite _ _ _ => 1
  | .illegalInstruction _ => 2

end Sys2Proof.Machine
end

