-- ==== Sys2Proof/Machine/Alu.lean ====
section
/-! DEFINITION. SLL, LUI, ORI and ADDIU: the execute step of each (spec 41_alu.md R87 to R91). -/

namespace Sys2Proof.Machine

/-- SLL: `x[rd] <- x[rt] << shamt`, bits shifted out lost, vacated bits 0 (R88). -/
def execSll (rd rt shamt : Nat) (s : State) : Host.Outcome State Fault Refusal :=
  .next (s.writeReg rd (s.readReg rt <<< shamt))

/-- LUI: `x[rt] <- imm ++ 0x0000` (R89). -/
def execLui (rt : Nat) (imm : BitVec 16) (s : State) : Host.Outcome State Fault Refusal :=
  .next (s.writeReg rt (upperImmediate imm))

/-- ORI: `x[rt] <- x[rs] | zext_16(imm)` (R90). -/
def execOri (rs rt : Nat) (imm : BitVec 16) (s : State) : Host.Outcome State Fault Refusal :=
  .next (s.writeReg rt (s.readReg rs ||| zext16 imm))

/-- ADDIU: `x[rt] <- x[rs] + sext_16(imm)`, modulo 2^32, with no overflow fault (R87, R91). -/
def execAddiu (rs rt : Nat) (imm : BitVec 16) (s : State) : Host.Outcome State Fault Refusal :=
  .next (s.writeReg rt (s.readReg rs + sext16 imm))

end Sys2Proof.Machine
end

