-- ==== Sys2Proof/Machine/Jump.lean ====
section
/-! DEFINITION. J: the execute step of the jump instruction (spec 43_jump.md R94). -/

namespace Sys2Proof.Machine

/-- J: the low 28 bits of the program counter become the shifted target; the program counter of the execute step is the
address this cycle fetched from, plus 4 (R78, R94). J raises nothing and writes no register. -/
def execJ (target : BitVec 26) (s : State) : Host.Outcome State Fault Refusal :=
  .next (s.setPc (jumpTarget s.pc target))

end Sys2Proof.Machine
end

