-- ==== Sys2Proof/Machine/Store.lean ====
section
/-! DEFINITION. SW: the execute step of the store instruction (spec 42_store.md R92, R93). -/

namespace Sys2Proof.Machine

/-- SW: store `x[rt]` at `x[rs] + sext_16(imm)`; the bus may raise, and then nothing is written (R92). -/
def execSw (rs rt : Nat) (imm : BitVec 16) (s : State) : Host.Outcome State Fault Refusal :=
  match memWrite s (s.effectiveAddress rs imm) (s.readReg rt) with
  | .ok t => .next t
  | .error f => raise f s

end Sys2Proof.Machine
end

