-- ==== Sys2Proof/Machine/Cycle.lean ====
section
/-! DEFINITION. One cycle: fetch, advance, retire (spec 40_cycle.md R73 to R86). -/

namespace Sys2Proof.Machine

/-- The fetch of a cycle: the word at the program counter (R76). -/
def fetch (s : State) : Except Fault Word := memRead s s.pc

/-- The state after a fetch that gave the word `w`: the slot holds it, and the program counter has advanced by 4,
modulo 2^32, before dispatch (R75 steps 2 and 3, R77). -/
def prefetched (s : State) (w : Word) : State := (s.setSlot (.full w)).setPc (s.pc + 4#32)

/-- Retire the word `r`: decode it and run its handler, or raise `IllegalInstruction` (R75 steps 4 and 5, R79, R82). -/
def retire (r : Word) (s : State) : Host.Outcome State Fault Refusal :=
  match decodeWord r with
  | .instr i => exec i s
  | .illegal w => raise (.illegalInstruction w) s

/-- Retire what the slot held at the start of the cycle: an empty slot executes nothing (R83). -/
def retireSlot (slot : Slot) (s : State) : Host.Outcome State Fault Refusal :=
  match slot with
  | .empty => .next s
  | .full r => retire r s

/-- `Cycle` of R75, for a running state. -/
def cycle (s : State) : Host.Outcome State Fault Refusal :=
  match fetch s with
  | .error f => raise f s
  | .ok w => retireSlot s.slot (prefetched s w)

/-- The state whose next cycle retires `w`: `w` is in the lookahead slot (log entry 10). -/
def placeNext (s : State) (w : Word) : State := s.setSlot (.full w)

end Sys2Proof.Machine
end

