-- ==== Sys2Proof/Machine/Step.lean ====
section
/-! DEFINITION. The step of the core: a cycle while it runs, none once it has faulted (spec 40_cycle.md R73, R74). -/

namespace Sys2Proof.Machine

/-- One step. A running state takes a cycle; a faulted state has none and reports its fault to the caller (R74, R98). -/
def step (s : State) : Host.Outcome State Fault Refusal :=
  match s.status with
  | .running => cycle s
  | .faulted f => .fault f

/-- `s` with the instruction whose bits are `w` placed where the next step takes the instruction it runs: the lookahead
slot, since a cycle retires the word fetched before it (R24; log entry 10). -/
def State.withFetchWord (s : State) (nbits w : Nat) : State := placeNext s (tableWord nbits w)

end Sys2Proof.Machine
end

