-- ==== Sys2Proof/Machine/HostPort.lean ====
section
/-! DEFINITION. What the host does to the core beside calling its step: ROM supply and inspection (spec
60_exceptions.md R110, R112; 70_reset_and_hazards.md R119). -/

namespace Sys2Proof.Machine

/-- Bytes laid out from a physical address on, in canonical form. -/
def Memory.ofBytes : Nat → List Byte → Memory
  | _, [] => []
  | a, b :: rest => Memory.push (Memory.ofBytes (a + 1) rest) a b

/-- Memory with the bytes of an image as the boot ROM; the other regions stay, all of them below the ROM (R34). -/
def Memory.withRom (m : Memory) (image : List Byte) : Memory :=
  m.filter (fun c => decide (c.1 < Region.rom.base)) ++ Memory.ofBytes Region.rom.base image

/-- ROM supply: byte `i` of `ROM_IMAGE` becomes ROM offset `i`. The contract is exactly 524288 bytes, once, before the
first cycle (R112, R119); any other image, or a state that has already run a cycle, is turned away (log entry 11). -/
def State.supplyRom (s : State) (image : List Byte) : Option State :=
  if image.length = Config.romImageBytes ∧ s.slot = .empty then some (s.setMem (s.mem.withRom image)) else none

/-- What the state-inspection interface shows (R110). -/
structure Inspection where
  /-- The full register file, `x[0]` first. -/
  gprs : List Word
  /-- `hi`. -/
  hi : Word
  /-- `lo`. -/
  lo : Word
  /-- The program counter. -/
  pc : Word
  /-- The main RAM buffer, by offset; an offset not listed holds 0. -/
  ram : Memory
  /-- The scratchpad buffer, by offset; an offset not listed holds 0. -/
  scratch : Memory
  deriving DecidableEq, Repr

/-- The cells of one region, by offset. -/
def Memory.window (m : Memory) (r : Region) : Memory :=
  (m.filter (fun c => r.contains c.1)).map (fun c => (c.1 - r.base, c.2))

/-- State inspection: reads, and changes nothing (R110). -/
def State.inspect (s : State) : Inspection where
  gprs := (List.range 32).map s.readReg
  hi := s.hi
  lo := s.lo
  pc := s.pc
  ram := s.mem.window .ram
  scratch := s.mem.window .scratch

end Sys2Proof.Machine
end

