-- ==== Sys2Proof/Machine/Pseudo.lean ====
section
/-! DEFINITION. The assembler's pseudo-instructions as expansions into the six instructions, and the operand of its
jump (spec 30_encoding.md R71, R72). Notation of the spec: no instruction's meaning depends on it. -/

namespace Sys2Proof.Machine

/-- The pseudo-instructions of R72. -/
inductive Pseudo where
  /-- `nop` -/
  | nop
  /-- `li $rt, imm` -/
  | li (rt : Nat) (imm : Int)
  /-- `la $rt, addr` -/
  | la (rt : Nat) (addr : Word)
  /-- `move $rt, $rs` -/
  | move (rt rs : Nat)
  deriving DecidableEq, Repr

/-- Bits 31 to 16 of a word. -/
def upperHalf (v : Word) : BitVec 16 := v.extractLsb' 16 16

/-- Bits 15 to 0 of a word. -/
def lowerHalf (v : Word) : BitVec 16 := v.extractLsb' 0 16

/-- The expansion of `li` by the range of its immediate (R72). -/
def expandLi (rt : Nat) (imm : Int) : List Instr :=
  if 0 ≤ imm ∧ imm ≤ 0xFFFF then [.ori 0 rt (BitVec.ofInt 16 imm)]
  else if -32768 ≤ imm ∧ imm < 0 then [.addiu 0 rt (BitVec.ofInt 16 imm)]
  else if lowerHalf (BitVec.ofInt 32 imm) = 0#16 then [.lui rt (upperHalf (BitVec.ofInt 32 imm))]
  else [.lui rt (upperHalf (BitVec.ofInt 32 imm)), .ori rt rt (lowerHalf (BitVec.ofInt 32 imm))]

/-- The expansion of a pseudo-instruction into the subset (R72). -/
def Pseudo.expand : Pseudo → List Instr
  | .nop => [.sll 0 0 0]
  | .li rt imm => expandLi rt imm
  | .la rt addr => [.lui rt (upperHalf addr), .ori rt rt (lowerHalf addr)]
  | .move rt rs => [.addiu rs rt 0#16]

/-- `j addr`: the jump whose target field is `(addr >> 2) & 0x03FFFFFF` (R71). -/
def assembleJ (addr : Word) : Instr := .j (addr.extractLsb' 2 26)

/-- The handlers of a list of instructions, one after another. -/
def execAll : List Instr → State → Host.Outcome State Fault Refusal
  | [], s => .next s
  | i :: rest, s =>
    match exec i s with
    | .next t => execAll rest t
    | .fault f => .fault f
    | .refused r => .refused r

end Sys2Proof.Machine
end

