-- ==== Sys2Proof/Safety.lean ====
section
/-! DEFINITION. The terms that claims use: what a state must satisfy, when a fault is genuine, and what a run leaves
alone (spec 10_state.md R16, R23; 20_memory.md R34, R45; 60_exceptions.md R99; 70_reset_and_hazards.md R117). -/

namespace Sys2Proof.Machine

/-- The region behind a logical address, without the offset. -/
def regionOf (a : Word) : Option Region := (locate a).map Prod.fst

/-- The address is in one of the three segments that have backing: 0b000, 0b100, 0b101 (R33), by number. -/
abbrev BackedSegment (a : Word) : Prop := a.toNat / 2 ^ 29 = 0 ∨ a.toNat / 2 ^ 29 = 4 ∨ a.toNat / 2 ^ 29 = 5

/-- An address that instruction fetch can read: a multiple of 4 in main RAM or the boot ROM (R41). -/
abbrev Fetchable (a : Word) : Prop := aligned a = true ∧ (regionOf a = some .ram ∨ regionOf a = some .rom)

/-- Listed bytes lie where a reset or a store can put them: main RAM, scratchpad or boot ROM; the hardware-register
buffer stays at its reset value (R29, R43). -/
def Memory.backed (m : Memory) : Bool :=
  m.all fun c => Region.ram.contains c.1 || Region.scratch.contains c.1 || Region.rom.contains c.1

/-- A fault that the condition of its row of R99 justifies. -/
def Fault.genuine : Fault → Prop
  | .bus .unaligned a _ => aligned a = false
  | .bus .unmapped a .fetch => aligned a = true ∧ regionOf a ≠ some .ram ∧ regionOf a ≠ some .rom
  | .bus .unmapped a .store => aligned a = true ∧ (regionOf a = none ∨ regionOf a = some .rom)
  | .expansionMapOverwrite o a _ => aligned a = true ∧ (o = 0 ∨ o = 4) ∧ locate a = some (.hwreg, o)
  | .illegalInstruction w => decodeWord w = .illegal w

/-- The status is running, or carries a genuine fault. -/
def RunStatus.genuine : RunStatus → Prop
  | .running => True
  | .faulted f => f.genuine

/-- What every state of a run satisfies: canonical memory inside the backed regions, register 0's cell 0 (R16), the
program counter a multiple of 4 (R23), and no status but a genuine one (R99). -/
structure State.Inv (s : State) : Prop where
  memWf : s.mem.wf = true
  memBacked : s.mem.backed = true
  zeroCell : s.regs[0] = 0#32
  pcAligned : aligned s.pc = true
  statusGenuine : s.status.genuine

/-- The program counter is in the 256 MiB block 0xB0000000 to 0xBFFFFFFF, where reset starts it (R117). -/
abbrev State.inBootBlock (s : State) : Prop := s.pc.extractLsb' 28 4 = 0xB#4

/-- Every byte of storage reads the same in the two states. -/
def SameBytes (s t : State) : Prop := ∀ a : Nat, t.mem.read a = s.mem.read a

/-- Every byte outside the four that start at physical address `p` reads the same in the two states. -/
def SameBytesOutside (p : Nat) (s t : State) : Prop :=
  ∀ a : Nat, (a < p ∨ p + 4 ≤ a) → t.mem.read a = s.mem.read a

/-- Every general register reads the same in the two states. -/
def SameRegs (s t : State) : Prop := ∀ i : Nat, t.readReg i = s.readReg i

/-- Every general register but `d` reads the same in the two states. -/
def SameRegsBut (d : Nat) (s t : State) : Prop := ∀ i : Nat, i ≠ d → t.readReg i = s.readReg i

/-- The part of the state that is neither a general register, nor storage, nor the program counter is the same. -/
def SameRest (s t : State) : Prop := t.hi = s.hi ∧ t.lo = s.lo ∧ t.slot = s.slot ∧ t.status = s.status

/-- A safe run of `k` steps: it ends in a running state, with no fault raised on the way. -/
def SafeRun (k : Nat) (s t : State) : Prop := Host.Core.run core k s = .next t ∧ t.status = .running

end Sys2Proof.Machine
end

