-- ==== Sys2Proof/Certificates/Slice0/Obligations.lean ====
section
/-! DEFINITION. The statements about the core, for the provers. Each docstring names the rule it formalises. -/

open Sys2Proof Sys2Proof.Machine

/-! ### Encoding -/

/-- R59, R66, R67, R71: decoding what the encoder writes gives the instruction back, as a word, at the front of a byte
string, and through the table's numbering of bits. -/
def Obligations.EncodeThenDecodeGivesTheInstruction : Prop :=
  ∀ i : Instr, i.wf = true →
    decodeWord (encode i) = .instr i ∧
    (∀ rest : List Byte, decodeBytes (encodeBytes i ++ rest) = .instr i rest) ∧
    decodeTableWord 32 (encode i).toNat = some i

/-- R67, R69: what a word decodes to is well formed, and encodes back to the word with the unused field cleared. -/
def Obligations.DecodedWordEncodesBackUpToUnusedField : Prop :=
  ∀ (w : Word) (i : Instr), decodeWord w = .instr i →
    i.wf = true ∧ encode i = w &&& i.readMask ∧ ∀ v : Word, v &&& i.readMask = w &&& i.readMask → decodeWord v = .instr i

/-- R67: the decoder's map, by the numbers of the fields. -/
def Obligations.DecodeFollowsTheOpcodeMap : Prop :=
  ∀ w : Word,
    (w.toNat / 2 ^ 26 = 0x00 → w.toNat % 64 = 0 →
      decodeWord w = .instr (.sll (w.toNat / 2 ^ 11 % 32) (w.toNat / 2 ^ 16 % 32) (w.toNat / 2 ^ 6 % 32))) ∧
    (w.toNat / 2 ^ 26 = 0x00 → w.toNat % 64 ≠ 0 → decodeWord w = .illegal w) ∧
    (w.toNat / 2 ^ 26 = 0x02 → decodeWord w = .instr (.j (BitVec.ofNat 26 w.toNat))) ∧
    (w.toNat / 2 ^ 26 = 0x09 → decodeWord w =
      .instr (.addiu (w.toNat / 2 ^ 21 % 32) (w.toNat / 2 ^ 16 % 32) (BitVec.ofNat 16 w.toNat))) ∧
    (w.toNat / 2 ^ 26 = 0x0D → decodeWord w =
      .instr (.ori (w.toNat / 2 ^ 21 % 32) (w.toNat / 2 ^ 16 % 32) (BitVec.ofNat 16 w.toNat))) ∧
    (w.toNat / 2 ^ 26 = 0x0F → decodeWord w =
      .instr (.lui (w.toNat / 2 ^ 16 % 32) (BitVec.ofNat 16 w.toNat))) ∧
    (w.toNat / 2 ^ 26 = 0x2B → decodeWord w =
      .instr (.sw (w.toNat / 2 ^ 21 % 32) (w.toNat / 2 ^ 16 % 32) (BitVec.ofNat 16 w.toNat))) ∧
    (w.toNat / 2 ^ 26 ∉ [0x00, 0x02, 0x09, 0x0D, 0x0F, 0x2B] → decodeWord w = .illegal w)

/-- R68: the illegal words are exactly those with one of the 58 other opcodes or with opcode 0 and another funct; one
that retires raises `IllegalInstruction`, and the core stops.
The opcode and funct numbers are the spec's general knowledge (log entry 6). That the next step answers with the outcome
`fault` is the model's choice (log entry 3). -/
def Obligations.EveryOtherWordIsAnIllegalInstruction : Prop :=
  (∀ w : Word, decodeWord w = .illegal w ↔
    w.toNat / 2 ^ 26 ∉ [0x00, 0x02, 0x09, 0x0D, 0x0F, 0x2B] ∨ (w.toNat / 2 ^ 26 = 0x00 ∧ w.toNat % 64 ≠ 0)) ∧
  (∀ (s : State) (w v : Word), s.status = .running → s.slot = .full w → decodeWord w = .illegal w →
    fetch s = .ok v →
    ∃ t, step s = .next t ∧ t.status = .faulted (.illegalInstruction w) ∧
      step t = .fault (.illegalInstruction w))

/-- R58: every field is the shift and mask of its row, for every word. -/
def Obligations.FieldsAreShiftsAndMasks : Prop :=
  ∀ w : Word,
    (fieldOpcode w).zeroExtend 32 = w >>> 26 ∧
    (fieldRs w).zeroExtend 32 = (w >>> 21) &&& 0x1F#32 ∧
    (fieldRt w).zeroExtend 32 = (w >>> 16) &&& 0x1F#32 ∧
    (fieldRd w).zeroExtend 32 = (w >>> 11) &&& 0x1F#32 ∧
    (fieldShamt w).zeroExtend 32 = (w >>> 6) &&& 0x1F#32 ∧
    (fieldFunct w).zeroExtend 32 = w &&& 0x3F#32 ∧
    (fieldImmediate w).zeroExtend 32 = w &&& 0xFFFF#32 ∧
    (fieldTarget w).zeroExtend 32 = w &&& 0x3FFFFFF#32

/-- Words written out from the layouts of R59 and the numbers of R66 (vectors V1 to V14 of 95_test_vectors.md). -/
def Obligations.WrittenOutWordsDecode : Prop :=
  decodeWord 0x00084900#32 = .instr (.sll 9 8 4) ∧
  decodeWord 0x3C3F0001#32 = .instr (.lui 31 0x0001#16) ∧
  decodeWord 0x35085678#32 = .instr (.ori 8 8 0x5678#16) ∧
  decodeWord 0x252AFFFF#32 = .instr (.addiu 9 10 0xFFFF#16) ∧
  decodeWord 0xAC42FFF0#32 = .instr (.sw 2 2 0xFFF0#16) ∧
  decodeWord 0x0BF00004#32 = .instr (.j 0x3F00004#26) ∧
  decodeWord 0x00000001#32 = .illegal 0x00000001#32 ∧
  decodeWord 0x20010001#32 = .illegal 0x20010001#32 ∧
  decodeWord 0xFFFFFFFF#32 = .illegal 0xFFFFFFFF#32

/-! ### The arithmetic and logic instructions -/

/-- R88: SLL. Its row of the table, its result, its discarded write, and everything it leaves alone.
The numbers, and that the source is `rt`, are the spec's general knowledge (log
entry 6). -/
def Obligations.SllShiftsLeftAndChangesNothingElse : Prop :=
  (∀ w : Word, w &&& 0xFC00003F#32 = 0x00000000#32 → decodeWord w =
    .instr (.sll (w.toNat / 2 ^ 11 % 32) (w.toNat / 2 ^ 16 % 32) (w.toNat / 2 ^ 6 % 32))) ∧
  (∀ (rd rt shamt : Nat) (s : State), (Instr.sll rd rt shamt).wf = true →
    ∃ t, exec (.sll rd rt shamt) s = .next t ∧
      (rd ≠ 0 → (t.readReg rd).toNat = (s.readReg rt).toNat * 2 ^ shamt % 2 ^ 32) ∧
      (rd = 0 → t = s) ∧
      SameRegsBut rd s t ∧ SameRest s t ∧ SameBytes s t ∧ t.pc = s.pc)

/-- R89: LUI. Its row of the table, its result, its discarded write, and everything it leaves alone.
The opcode number is the spec's general knowledge (log entry 6). -/
def Obligations.LuiLoadsTheUpperHalfAndChangesNothingElse : Prop :=
  (∀ w : Word, w &&& 0xFC000000#32 = 0x3C000000#32 → decodeWord w =
    .instr (.lui (w.toNat / 2 ^ 16 % 32) (BitVec.ofNat 16 w.toNat))) ∧
  (∀ (rt : Nat) (imm : BitVec 16) (s : State), (Instr.lui rt imm).wf = true →
    ∃ t, exec (.lui rt imm) s = .next t ∧
      (rt ≠ 0 → (t.readReg rt).toNat = imm.toNat * 65536) ∧
      (rt = 0 → t = s) ∧
      SameRegsBut rt s t ∧ SameRest s t ∧ SameBytes s t ∧ t.pc = s.pc)

/-- R90: ORI. Its row of the table, its result bit by bit, its discarded write, and everything it leaves alone.
The opcode number is the spec's general knowledge (log entry 6). -/
def Obligations.OriSetsTheImmediateBitsAndChangesNothingElse : Prop :=
  (∀ w : Word, w &&& 0xFC000000#32 = 0x34000000#32 → decodeWord w =
    .instr (.ori (w.toNat / 2 ^ 21 % 32) (w.toNat / 2 ^ 16 % 32) (BitVec.ofNat 16 w.toNat))) ∧
  (∀ (rs rt : Nat) (imm : BitVec 16) (s : State), (Instr.ori rs rt imm).wf = true →
    ∃ t, exec (.ori rs rt imm) s = .next t ∧
      (rt ≠ 0 → ∀ k : Nat, k < 32 → (t.readReg rt).getLsbD k =
        if k < 16 then (s.readReg rs).getLsbD k || imm.getLsbD k else (s.readReg rs).getLsbD k) ∧
      (rt = 0 → t = s) ∧
      SameRegsBut rt s t ∧ SameRest s t ∧ SameBytes s t ∧ t.pc = s.pc)

/-- R87, R91: ADDIU. Its row of the table, its result as integer addition narrowed to 32 bits with no overflow fault,
its discarded write, and everything it leaves alone.
The opcode number is the spec's general knowledge (log entry 6). -/
def Obligations.AddiuAddsWrappingAndChangesNothingElse : Prop :=
  (∀ w : Word, w &&& 0xFC000000#32 = 0x24000000#32 → decodeWord w =
    .instr (.addiu (w.toNat / 2 ^ 21 % 32) (w.toNat / 2 ^ 16 % 32) (BitVec.ofNat 16 w.toNat))) ∧
  (∀ (rs rt : Nat) (imm : BitVec 16) (s : State), (Instr.addiu rs rt imm).wf = true →
    ∃ t, exec (.addiu rs rt imm) s = .next t ∧
      (rt ≠ 0 → ((t.readReg rt).toNat : Int) = (((s.readReg rs).toNat : Int) + imm.toInt) % 2 ^ 32) ∧
      (rt = 0 → t = s) ∧
      SameRegsBut rt s t ∧ SameRest s t ∧ SameBytes s t ∧ t.pc = s.pc)

/-- R61: sign extension copies bit 15 into bits 31 to 16 and keeps the low half. -/
def Obligations.SignExtensionReplicatesBit15 : Prop :=
  ∀ imm : BitVec 16,
    (∀ k : Nat, k < 16 → (sext16 imm).getLsbD k = imm.getLsbD k) ∧
    (∀ k : Nat, 16 ≤ k → k < 32 → (sext16 imm).getLsbD k = imm.getLsbD 15) ∧
    sext16 imm = zext16 imm ||| (if imm.getLsbD 15 then 0xFFFF0000#32 else 0x00000000#32)

/-- R70: the no-op word, and the forms that change no state. -/
def Obligations.FormsThatWriteRegisterZeroChangeNothing : Prop :=
  decodeWord 0x00000000#32 = .instr (.sll 0 0 0) ∧
  (∀ (rt shamt : Nat) (s : State), exec (.sll 0 rt shamt) s = .next s) ∧
  (∀ (imm : BitVec 16) (s : State), exec (.lui 0 imm) s = .next s) ∧
  (∀ (rs : Nat) (imm : BitVec 16) (s : State), exec (.ori rs 0 imm) s = .next s) ∧
  (∀ (rs : Nat) (imm : BitVec 16) (s : State), exec (.addiu rs 0 imm) s = .next s)

/-! ### Registers -/

/-- R16: the write chokepoint keeps register 0 at 0, whatever is written, and every handler writes the register file
only through it. -/
def Obligations.RegistersAreWrittenThroughOneChokepoint : Prop :=
  (∀ (s : State) (v : Word), s.writeReg 0 v = s) ∧
  (∀ (s : State) (i : Nat) (v : Word), i ≠ 0 → i < 32 →
    (s.writeReg i v).readReg i = v ∧ SameRegsBut i s (s.writeReg i v)) ∧
  (∀ (s : State) (ws : List (Nat × Word)), (ws.foldl (fun u p => u.writeReg p.1 p.2) s).readReg 0 = 0#32) ∧
  (∀ (i : Instr) (s t : State), exec i s = .next t →
    t.regs = s.regs ∨ ∃ d v, d ∈ i.writes ∧ t = s.writeReg d v)

/-- R80: every handler completes, writes at most one register, and leaves the slot, `hi` and `lo` alone; only J writes
the program counter and only SW writes memory. -/
def Obligations.HandlersWriteOneRegisterOrStoreOrJump : Prop :=
  ∀ (i : Instr) (s : State),
    i.reads.length ≤ 2 ∧ i.writes.length ≤ 1 ∧
    ∃ t, exec i s = .next t ∧
      (∀ r : Nat, r ∉ i.writes → t.readReg r = s.readReg r) ∧
      t.slot = s.slot ∧ t.hi = s.hi ∧ t.lo = s.lo ∧
      (t.pc = s.pc ∨ ∃ target, i = .j target) ∧
      ((t.mem = s.mem ∧ t.status = s.status) ∨ ∃ rs rt imm, i = .sw rs rt imm)

/-- R18: a register an instruction does not read has no influence on it. Where the instruction does not write it
either, the register keeps its value; where it is the destination, its old value is lost. -/
def Obligations.UnreadRegistersHaveNoInfluence : Prop :=
  ∀ (i : Instr) (s : State) (r : Nat) (v : Word), r ∉ i.reads →
    ∃ t, exec i s = .next t ∧
      (r ∉ i.writes → exec i (s.writeReg r v) = .next (t.writeReg r v)) ∧
      (r ∈ i.writes → exec i (s.writeReg r v) = .next t)

/-! ### The address map and the bus -/

/-- R36: the three views of each region.
The views of the regions other than main RAM are the spec's decision D6. -/
def Obligations.EveryRegionHasThreeViews : Prop :=
  ∀ (a : Word) (o : Nat),
    (locate a = some (.ram, o) ↔ o < 0x200000 ∧
      (a.toNat = 0x00000000 + o ∨ a.toNat = 0x80000000 + o ∨ a.toNat = 0xA0000000 + o)) ∧
    (locate a = some (.scratch, o) ↔ o < 0x400 ∧
      (a.toNat = 0x1F800000 + o ∨ a.toNat = 0x9F800000 + o ∨ a.toNat = 0xBF800000 + o)) ∧
    (locate a = some (.hwreg, o) ↔ o < 0x2000 ∧
      (a.toNat = 0x1F801000 + o ∨ a.toNat = 0x9F801000 + o ∨ a.toNat = 0xBF801000 + o)) ∧
    (locate a = some (.rom, o) ↔ o < 0x80000 ∧
      (a.toNat = 0x1FC00000 + o ∨ a.toNat = 0x9FC00000 + o ∨ a.toNat = 0xBFC00000 + o))

/-- R40: alignment is tested first, on the logical address, for load, store, SW and fetch alike. -/
def Obligations.MisalignedAccessFaultsFirst : Prop :=
  ∀ (s : State) (a v : Word), a.toNat % 4 ≠ 0 →
    memRead s a = .error (.bus .unaligned a .fetch) ∧
    memWrite s a v = .error (.bus .unaligned a .store) ∧
    (∀ (rs rt : Nat) (imm : BitVec 16), s.effectiveAddress rs imm = a →
      exec (.sw rs rt imm) s = .next (s.setStatus (.faulted (.bus .unaligned a .store)))) ∧
    (s.status = .running → s.pc = a →
      step s = .next (s.setStatus (.faulted (.bus .unaligned a .fetch))))

/-- R41: the bus load, by the number of the address. -/
def Obligations.BusLoadReadsRamAndRomOnly : Prop :=
  ∀ (s : State) (a : Word), memRead s a =
    if a.toNat % 4 ≠ 0 then .error (.bus .unaligned a .fetch)
    else if ¬ BackedSegment a then .error (.bus .unmapped a .fetch)
    else if a.toNat % 2 ^ 29 < 0x200000 then .ok (s.mem.readWord (a.toNat % 2 ^ 29))
    else if 0x1FC00000 ≤ a.toNat % 2 ^ 29 ∧ a.toNat % 2 ^ 29 < 0x1FC80000 then
      .ok (s.mem.readWord (a.toNat % 2 ^ 29))
    else .error (.bus .unmapped a .fetch)

/-- R42: the bus store, by the number of the address. -/
def Obligations.BusStoreFollowsTheRegionTable : Prop :=
  ∀ (s : State) (a v : Word), memWrite s a v =
    if a.toNat % 4 ≠ 0 then .error (.bus .unaligned a .store)
    else if ¬ BackedSegment a then .error (.bus .unmapped a .store)
    else if a.toNat % 2 ^ 29 < 0x200000 then .ok (s.setMem (s.mem.writeWord (a.toNat % 2 ^ 29) v))
    else if 0x1F800000 ≤ a.toNat % 2 ^ 29 ∧ a.toNat % 2 ^ 29 < 0x1F800400 then
      .ok (s.setMem (s.mem.writeWord (a.toNat % 2 ^ 29) v))
    else if a.toNat % 2 ^ 29 = 0x1F801000 then .error (.expansionMapOverwrite 0 a v)
    else if a.toNat % 2 ^ 29 = 0x1F801004 then .error (.expansionMapOverwrite 4 a v)
    else if 0x1F801000 ≤ a.toNat % 2 ^ 29 ∧ a.toNat % 2 ^ 29 < 0x1F803000 then .ok s
    else .error (.bus .unmapped a .store)

/-- R38: little-endian order of a word read, of a word written, and of an instruction fetched. -/
def Obligations.WordsAreLittleEndian : Prop :=
  (∀ (s : State) (w : Word), fetch s = .ok w → ∃ r o, locate s.pc = some (r, o) ∧
    w = (s.regionByte r o).zeroExtend 32 ||| ((s.regionByte r (o + 1)).zeroExtend 32 <<< 8) |||
      ((s.regionByte r (o + 2)).zeroExtend 32 <<< 16) ||| ((s.regionByte r (o + 3)).zeroExtend 32 <<< 24)) ∧
  (∀ (m : Memory) (p : Nat), m.readWord p =
    (m.read p).zeroExtend 32 ||| ((m.read (p + 1)).zeroExtend 32 <<< 8) |||
      ((m.read (p + 2)).zeroExtend 32 <<< 16) ||| ((m.read (p + 3)).zeroExtend 32 <<< 24)) ∧
  (∀ (m : Memory) (p : Nat) (v : Word) (k : Nat), m.wf = true → k < 4 →
    ((m.writeWord p v).read (p + k)).toNat = v.toNat / 2 ^ (8 * k) % 256) ∧
  (∀ (m : Memory) (p : Nat) (v : Word) (a : Nat), a < p ∨ p + 4 ≤ a → (m.writeWord p v).read a = m.read a)

/-- R33, R36, R51: a word stored in main RAM through one view is loaded through every view, and every load of another
word is unchanged. -/
def Obligations.StoreIsSeenThroughEveryView : Prop :=
  ∀ (s : State) (a v : Word), s.mem.wf = true → a.toNat % 4 = 0 → BackedSegment a → a.toNat % 2 ^ 29 < 0x200000 →
    ∃ t, memWrite s a v = .ok t ∧
      (∀ b : Word, BackedSegment b → b.toNat % 2 ^ 29 = a.toNat % 2 ^ 29 → memRead t b = .ok v) ∧
      (∀ b : Word, b.toNat % 2 ^ 29 ≠ a.toNat % 2 ^ 29 → memRead t b = memRead s b)

/-- R49: repeating a successful store gives the same state. -/
def Obligations.StoresAreIdempotent : Prop :=
  ∀ (s t : State) (a v : Word), s.mem.wf = true → memWrite s a v = .ok t → memWrite t a v = .ok t

/-- R48: a load that succeeds reads the word at the region and offset of its address, and a store writes there, within
the buffer of the region; a store to the hardware-register window indexes no buffer. -/
def Obligations.AccessesStayInsideTheirBuffer : Prop :=
  (∀ (s : State) (a w : Word), memRead s a = .ok w →
    ∃ r o, locate a = some (r, o) ∧ (r = .ram ∨ r = .rom) ∧ o % 4 = 0 ∧ o + 4 ≤ r.storage ∧ w = s.regionWord r o) ∧
  (∀ (s t : State) (a v : Word), memWrite s a v = .ok t →
    ∃ r o, locate a = some (r, o) ∧
      ((r = .hwreg ∧ t = s) ∨
        ((r = .ram ∨ r = .scratch) ∧ o % 4 = 0 ∧ o + 4 ≤ r.storage ∧ t = s.writeRegionWord r o v)))

/-! ### SW -/

/-- R92: SW to main RAM or the scratchpad: the address, the four bytes, and everything it leaves alone. -/
def Obligations.SwStoresTheWordAndChangesNothingElse : Prop :=
  ∀ (rs rt : Nat) (imm : BitVec 16) (s : State) (r : Region) (o : Nat),
    s.mem.wf = true → (s.effectiveAddress rs imm).toNat % 4 = 0 → (r = .ram ∨ r = .scratch) →
    locate (s.effectiveAddress rs imm) = some (r, o) →
    ((s.effectiveAddress rs imm).toNat : Int) = (((s.readReg rs).toNat : Int) + imm.toInt) % 2 ^ 32 ∧
    ∃ t, exec (.sw rs rt imm) s = .next t ∧
      (∀ k : Nat, k < 4 → (t.regionByte r (o + k)).toNat = (s.readReg rt).toNat / 2 ^ (8 * k) % 256) ∧
      SameBytesOutside (r.base + o) s t ∧
      SameRegs s t ∧ SameRest s t ∧ t.pc = s.pc

/-- R43: a store to the hardware-register window at any offset but 0 and 4 succeeds and has no effect, and no step
changes the window's bytes.
That the window keeps its bytes is the spec's decision D24. -/
def Obligations.HardwareWindowStoresAreDiscarded : Prop :=
  (∀ (s : State) (rs rt : Nat) (imm : BitVec 16) (o : Nat),
    (s.effectiveAddress rs imm).toNat % 4 = 0 → BackedSegment (s.effectiveAddress rs imm) →
    (s.effectiveAddress rs imm).toNat % 2 ^ 29 = 0x1F801000 + o → o < 0x2000 → o ≠ 0 → o ≠ 4 →
    exec (.sw rs rt imm) s = .next s) ∧
  (∀ (s t : State) (o : Nat), o < 0x2000 → step s = .next t → t.regionByte .hwreg o = s.regionByte .hwreg o)

/-- R44: the expansion-base registers can be neither written nor read, whatever the value; they hold 0 at reset. -/
def Obligations.ExpansionBaseRegistersRejectEveryAccess : Prop :=
  (∀ (s : State) (rs rt : Nat) (imm : BitVec 16) (o : Nat), (o = 0 ∨ o = 4) →
    BackedSegment (s.effectiveAddress rs imm) → (s.effectiveAddress rs imm).toNat % 2 ^ 29 = 0x1F801000 + o →
    exec (.sw rs rt imm) s = .next (s.setStatus
      (.faulted (.expansionMapOverwrite o (s.effectiveAddress rs imm) (s.readReg rt))))) ∧
  (∀ (s : State) (a : Word) (o : Nat), (o = 0 ∨ o = 4) → BackedSegment a → a.toNat % 2 ^ 29 = 0x1F801000 + o →
    memRead s a = .error (.bus .unmapped a .fetch)) ∧
  (∀ (policy : GprResetPolicy) (o : Nat), o < 8 → (State.resetUnder policy).regionByte .hwreg o = 0#8)

/-- R92: SW with no backing behind its address raises `Bus(Unmapped)` and writes nothing. -/
def Obligations.SwToUnmappedOrRomRaisesAndWritesNothing : Prop :=
  ∀ (rs rt : Nat) (imm : BitVec 16) (s : State),
    (s.effectiveAddress rs imm).toNat % 4 = 0 →
    (¬ BackedSegment (s.effectiveAddress rs imm) ∨
      (0x00200000 ≤ (s.effectiveAddress rs imm).toNat % 2 ^ 29 ∧
        (s.effectiveAddress rs imm).toNat % 2 ^ 29 < 0x1F800000) ∨
      (0x1F800400 ≤ (s.effectiveAddress rs imm).toNat % 2 ^ 29 ∧
        (s.effectiveAddress rs imm).toNat % 2 ^ 29 < 0x1F801000) ∨
      0x1F803000 ≤ (s.effectiveAddress rs imm).toNat % 2 ^ 29) →
    exec (.sw rs rt imm) s =
      .next (s.setStatus (.faulted (.bus .unmapped (s.effectiveAddress rs imm) .store)))

/-! ### J and the delay slot -/

/-- R63, R94: J. Its row of the table, its target, and everything it leaves alone.
The opcode number is the spec's general knowledge (log entry 6). -/
def Obligations.JumpReplacesTheLow28BitsOfPc : Prop :=
  (∀ w : Word, w &&& 0xFC000000#32 = 0x08000000#32 → decodeWord w = .instr (.j (BitVec.ofNat 26 w.toNat))) ∧
  (∀ (target : BitVec 26) (s : State),
    ∃ t, exec (.j target) s = .next t ∧
      t.pc.toNat = s.pc.toNat / 2 ^ 28 * 2 ^ 28 + target.toNat * 4 ∧ t.pc.toNat % 4 = 0 ∧
      SameRegs s t ∧ SameRest s t ∧ SameBytes s t)

/-- R85, R96 case 1: the word after a J retires next, while the target is fetched; where the target cannot be fetched,
the cycle faults before that word retires. -/
def Obligations.DelaySlotRunsWhileTheTargetIsFetched : Prop :=
  ∀ (s : State) (r d : Word) (target : BitVec 26),
    s.status = .running → s.slot = .full r → decodeWord r = .instr (.j target) → fetch s = .ok d →
    ∃ t, step s = .next t ∧ t.slot = .full d ∧ t.status = .running ∧ SameRegs s t ∧ SameBytes s t ∧
      t.pc.toNat = (s.pc.toNat + 4) / 2 ^ 28 * 2 ^ 28 + target.toNat * 4 ∧
      (∀ (w : Word) (i : Instr), memRead s t.pc = .ok w → decodeWord d = .instr i →
        step t = exec i ((t.setSlot (.full w)).setPc (t.pc + 4#32))) ∧
      (∀ f : Fault, memRead s t.pc = .error f → step t = .next (t.setStatus (.faulted f)))

/-- R96 case 3: a J in the delay slot of a J. One word from the first target is fetched, and the next fetch is at the
second target. -/
def Obligations.JumpInDelaySlotRunsOneWordOfTheFirstTarget : Prop :=
  ∀ (s : State) (r d w : Word) (target1 target2 : BitVec 26),
    s.status = .running → s.slot = .full r → decodeWord r = .instr (.j target1) → fetch s = .ok d →
    decodeWord d = .instr (.j target2) → memRead s (jumpTarget (s.pc + 4#32) target1) = .ok w →
    ∃ t u, step s = .next t ∧ step t = .next u ∧ u.slot = .full w ∧ u.status = .running ∧
      u.pc.toNat = ((jumpTarget (s.pc + 4#32) target1).toNat + 4) / 2 ^ 28 * 2 ^ 28 + target2.toNat * 4 ∧
      SameRegs s u ∧ SameBytes s u ∧
      ∀ (x : Word) (i : Instr), memRead s u.pc = .ok x → decodeWord w = .instr i →
        step u = exec i ((u.setSlot (.full x)).setPc (u.pc + 4#32))

/-- R71: the assembler's jump reaches its address, in the 256 MiB block of the program counter. -/
def Obligations.AssembledJumpReachesItsAddress : Prop :=
  ∀ (addr : Word) (s : State), addr.toNat % 4 = 0 → addr.toNat / 2 ^ 28 = s.pc.toNat / 2 ^ 28 →
    exec (assembleJ addr) s = .next (s.setPc addr)

/-! ### The cycle -/

/-- R75, R79: a cycle runs the instruction that the slot held, after the fetch and the advance. -/
def Obligations.StepRunsTheDecodedInstruction : Prop :=
  ∀ (s : State) (r w : Word) (i : Instr),
    s.status = .running → s.slot = .full r → decodeWord r = .instr i → fetch s = .ok w →
    step s = exec i ((s.setSlot (.full w)).setPc (s.pc + 4#32))

/-- R24, R75: the instruction whose bytes lie at the program counter is the one the next cycle runs, whatever this cycle
stores. -/
def Obligations.BytesAtPcRunInTheNextCycle : Prop :=
  ∀ (s t : State) (r : Region) (o : Nat) (i : Instr) (rest : List Byte) (w : Word),
    s.status = .running → s.pc.toNat % 4 = 0 → (r = .ram ∨ r = .rom) → locate s.pc = some (r, o) →
    decodeBytes (s.regionByte r o :: s.regionByte r (o + 1) :: s.regionByte r (o + 2) :: s.regionByte r (o + 3) :: rest)
      = .instr i rest →
    step s = .next t → t.status = .running → fetch t = .ok w →
    step t = exec i ((t.setSlot (.full w)).setPc (t.pc + 4#32))

/-- R76: the fetch of a cycle, by the number of the program counter: the two faults, and the word that enters the
slot. -/
def Obligations.FetchFillsTheSlotOrFaults : Prop :=
  ∀ s : State, s.status = .running →
    (s.pc.toNat % 4 ≠ 0 → step s = .next (s.setStatus (.faulted (.bus .unaligned s.pc .fetch)))) ∧
    (s.pc.toNat % 4 = 0 →
      ¬ (BackedSegment s.pc ∧ (s.pc.toNat % 2 ^ 29 < 0x200000 ∨
        (0x1FC00000 ≤ s.pc.toNat % 2 ^ 29 ∧ s.pc.toNat % 2 ^ 29 < 0x1FC80000))) →
      step s = .next (s.setStatus (.faulted (.bus .unmapped s.pc .fetch)))) ∧
    (s.pc.toNat % 4 = 0 → BackedSegment s.pc →
      (s.pc.toNat % 2 ^ 29 < 0x200000 ∨ (0x1FC00000 ≤ s.pc.toNat % 2 ^ 29 ∧ s.pc.toNat % 2 ^ 29 < 0x1FC80000)) →
      ∃ t, step s = .next t ∧ t.slot = .full (s.mem.readWord (s.pc.toNat % 2 ^ 29)))

/-- R77: every cycle whose fetch succeeds advances the program counter by 4, modulo 2^32, before dispatch; only a
retiring J overwrites it. -/
def Obligations.PcAdvancesByFourUnlessAJumpRetires : Prop :=
  ∀ (s : State) (w : Word), s.status = .running → fetch s = .ok w →
    ∃ t, step s = .next t ∧
      (∀ (r : Word) (target : BitVec 26), s.slot = .full r → decodeWord r = .instr (.j target) →
        t.pc.toNat = (s.pc + 4#32).toNat / 2 ^ 28 * 2 ^ 28 + target.toNat * 4) ∧
      ((∀ (r : Word) (target : BitVec 26), s.slot = .full r → decodeWord r ≠ .instr (.j target)) →
        t.pc.toNat = (s.pc.toNat + 4) % 2 ^ 32)

/-- R83: the first cycle after reset fetches the word at the reset vector and executes nothing; a full slot never
empties.
That the first cycle executes nothing is the spec's decision D8. -/
def Obligations.FirstCycleOnlyPrimesTheSlot : Prop :=
  (∀ (policy : GprResetPolicy) (image : List Byte) (s : State),
    (State.resetUnder policy).supplyRom image = some s →
    step s = .next ((s.setSlot (.full (wordOfBytes (image.getD 0 0#8) (image.getD 1 0#8) (image.getD 2 0#8)
      (image.getD 3 0#8)))).setPc 0xBFC00004#32)) ∧
  (∀ s t : State, s.slot ≠ .empty → step s = .next t → t.slot ≠ .empty)

/-- R25: an empty slot and one seeded with the no-op word give the same state after a cycle that fetches. -/
def Obligations.EmptySlotActsAsASeededNop : Prop :=
  ∀ (s : State) (w : Word), s.status = .running → fetch s = .ok w →
    step (s.setSlot .empty) = step (s.setSlot (.full 0x00000000#32)) ∧
    step (s.setSlot .empty) = .next ((s.setSlot (.full w)).setPc (s.pc + 4#32))

/-- R53, R121: a store cannot change the word already in the slot; a fetch in a later cycle sees it. -/
def Obligations.StoreIsTooLateForTheWordInTheSlot : Prop :=
  ∀ (s t : State) (r w : Word) (rs rt : Nat) (imm : BitVec 16),
    s.status = .running → s.mem.wf = true → s.slot = .full r → decodeWord r = .instr (.sw rs rt imm) →
    fetch s = .ok w → step s = .next t → t.status = .running →
    t.slot = .full w ∧
    (locate (s.effectiveAddress rs imm) = locate s.pc → memRead t s.pc = .ok (s.readReg rt)) ∧
    (locate (s.effectiveAddress rs imm) = locate (s.pc + 4#32) → fetch t = .ok (s.readReg rt))

/-- R124: past the last word of a fetchable region the fetch faults, so the word in the slot does not retire. -/
def Obligations.RunningOffARegionFaultsBeforeTheLastWordRetires : Prop :=
  ∀ s : State, s.status = .running →
    s.pc.toNat ∈ [0x00200000, 0x80200000, 0xA0200000, 0x1FC80000, 0x9FC80000, 0xBFC80000] →
    step s = .next (s.setStatus (.faulted (.bus .unmapped s.pc .fetch)))

/-! ### Faults -/

/-- R100: the state after a fault, row by row. -/
def Obligations.FaultsArePrecise : Prop :=
  (∀ (s : State) (f : Fault), s.status = .running → fetch s = .error f →
    step s = .next (s.setStatus (.faulted f))) ∧
  (∀ (s : State) (r w : Word), s.status = .running → fetch s = .ok w → s.slot = .full r →
    decodeWord r = .illegal r →
    step s = .next (((s.setSlot (.full w)).setPc (s.pc + 4#32)).setStatus (.faulted (.illegalInstruction r)))) ∧
  (∀ (s : State) (r w : Word) (rs rt : Nat) (imm : BitVec 16) (f : Fault), s.status = .running →
    fetch s = .ok w → s.slot = .full r → decodeWord r = .instr (.sw rs rt imm) →
    memWrite s (s.effectiveAddress rs imm) (s.readReg rt) = .error f →
    step s = .next (((s.setSlot (.full w)).setPc (s.pc + 4#32)).setStatus (.faulted f)))

/-- R74, R98: a faulted state takes no cycle: every run from it reports its fault, and it is the only state that stops.
A running state always takes its cycle.
That a faulted state's answer is the outcome `fault` is the model's choice (log entry 3). -/
def Obligations.OnlyAFaultedStateStops : Prop :=
  (∀ (s : State) (f : Fault), step s = .fault f ↔ s.status = .faulted f) ∧
  (∀ (s : State) (r : Refusal), step s ≠ .refused r) ∧
  (∀ s : State, s.status = .running → ∃ t, step s = .next t) ∧
  (∀ (s : State) (f : Fault) (k : Nat), s.status = .faulted f → Host.Core.run core (k + 1) s = .fault f)

/-- R99: where a fault comes from: the fetch, an illegal retiring word, or SW; the five other instructions raise
nothing. -/
def Obligations.EveryFaultHasItsSource : Prop :=
  (∀ (s t : State) (f : Fault), s.status = .running → step s = .next t → t.status = .faulted f →
    f.genuine ∧
    ((fetch s = .error f ∧ ∃ kind, f = .bus kind s.pc .fetch) ∨
     (∃ w r, fetch s = .ok w ∧ s.slot = .full r ∧ decodeWord r = .illegal r ∧ f = .illegalInstruction r) ∨
     (∃ w r rs rt imm, fetch s = .ok w ∧ s.slot = .full r ∧ decodeWord r = .instr (.sw rs rt imm) ∧
       memWrite s (s.effectiveAddress rs imm) (s.readReg rt) = .error f ∧
       ((∃ kind, f = .bus kind (s.effectiveAddress rs imm) .store) ∨
        ∃ o, f = .expansionMapOverwrite o (s.effectiveAddress rs imm) (s.readReg rt))))) ∧
  (∀ (i : Instr) (s t : State), exec i s = .next t → t.status ≠ s.status → ∃ rs rt imm, i = .sw rs rt imm)

/-- R101: a fetch fault comes before the decode of the retiring word, and the alignment test before the expansion-base
guard. -/
def Obligations.FetchFaultComesBeforeDecodeFault : Prop :=
  (∀ (s : State) (r : Word) (f : Fault), s.status = .running → s.slot = .full r → decodeWord r = .illegal r →
    fetch s = .error f →
    ∃ t, step s = .next t ∧ t.status = .faulted f ∧ f ≠ .illegalInstruction r) ∧
  (∀ (s : State) (a v : Word), a.toNat = 0x1F801001 → memWrite s a v = .error (.bus .unaligned a .store))

/-! ### Invariants and runs -/

/-- R16, R23, R29, R43, R99: the invariant is kept by every step. -/
def Obligations.EveryStepKeepsTheInvariant : Prop :=
  ∀ s t : State, s.Inv → step s = .next t → t.Inv

/-- R31, R114: the invariant holds at reset under every policy, before and after the ROM is supplied. -/
def Obligations.ResetMeetsTheInvariant : Prop :=
  State.reset.Inv ∧
  ∀ policy : GprResetPolicy, (State.resetUnder policy).Inv ∧
    ∀ (image : List Byte) (s : State), (State.resetUnder policy).supplyRom image = some s → s.Inv

/-- R23, R99: from a running state that meets the invariant, no run ends in `Bus(Unaligned)` on a fetch. -/
def Obligations.FetchIsNeverUnalignedInARun : Prop :=
  ∀ (k : Nat) (s t : State) (a : Word), s.Inv → s.status = .running → Host.Core.run core k s = .next t →
    aligned t.pc = true ∧ t.status ≠ .faulted (.bus .unaligned a .fetch)

/-- R117: a run that starts in the boot block stays in it, and every word it fetches is the one the ROM held at its
start. -/
def Obligations.BootRunsFetchFromTheRomAlone : Prop :=
  (∀ policy : GprResetPolicy, (State.resetUnder policy).inBootBlock) ∧
  ∀ (k : Nat) (s t : State), s.inBootBlock → Host.Core.run core k s = .next t →
    t.inBootBlock ∧ ∀ w : Word, fetch t = .ok w → ∃ o, locate t.pc = some (.rom, o) ∧ w = s.regionWord .rom o

/-- R19, R43, R45: no run changes `hi`, `lo`, the boot ROM or the hardware-register buffer. -/
def Obligations.RunsLeaveHiLoRomAndWindowAlone : Prop :=
  ∀ (k : Nat) (s t : State), Host.Core.run core k s = .next t →
    t.hi = s.hi ∧ t.lo = s.lo ∧
    (∀ o : Nat, o < 0x80000 → t.regionByte .rom o = s.regionByte .rom o) ∧
    (∀ o : Nat, o < 0x2000 → t.regionByte .hwreg o = s.regionByte .hwreg o)

/-! ### Reset and the host -/

/-- R114: the state at reset, once the loader has supplied the image, under every policy. -/
def Obligations.ResetStateIsTheSpecsRecord : Prop :=
  ∀ (policy : GprResetPolicy) (image : List Byte), image.length = 524288 →
    ∃ s, (State.resetUnder policy).supplyRom image = some s ∧
      s.readReg 0 = 0#32 ∧
      (∀ i : Nat, 1 ≤ i → i < 32 → (policy = .zero → s.readReg i = 0#32) ∧
        (policy = .poison → s.readReg i = 0x00FACADE#32)) ∧
      s.hi = 0#32 ∧ s.lo = 0#32 ∧ s.pc = 0xBFC00000#32 ∧ s.slot = .empty ∧ s.status = .running ∧
      (∀ o : Nat, o < 2097152 → s.regionByte .ram o = 0#8) ∧
      (∀ o : Nat, o < 1024 → s.regionByte .scratch o = 0#8) ∧
      (∀ o : Nat, o < 36 → s.regionByte .hwreg o = 0#8) ∧
      (∀ o : Nat, o < 524288 → s.regionByte .rom o = image.getD o 0#8)

/-- R119: an image that is taken becomes the boot ROM and changes nothing else. That an image of another length, or one
offered once the slot is full, is turned away is the model's choice (log entry 11). -/
def Obligations.RomSupplyTakesOnlyExactLengthAndOnlyWithTheSlotEmpty : Prop :=
  ∀ (s : State) (image : List Byte),
    (image.length ≠ 524288 → s.supplyRom image = none) ∧
    (s.slot ≠ .empty → s.supplyRom image = none) ∧
    (∀ t, s.supplyRom image = some t → SameRegs s t ∧ SameRest s t ∧ t.pc = s.pc ∧
      (∀ a : Nat, a < 0x1FC00000 → t.mem.read a = s.mem.read a) ∧
      ∀ o : Nat, o < 524288 → t.regionByte .rom o = image.getD o 0#8)

/-- R110: inspection shows the register file, `hi`, `lo`, the program counter, main RAM and the scratchpad. -/
def Obligations.InspectionShowsTheState : Prop :=
  ∀ s : State,
    (∀ i : Nat, i < 32 → s.inspect.gprs[i]? = some (s.readReg i)) ∧
    s.inspect.gprs.length = 32 ∧
    s.inspect.hi = s.hi ∧ s.inspect.lo = s.lo ∧ s.inspect.pc = s.pc ∧
    (∀ o : Nat, o < 2097152 → s.inspect.ram.read o = s.regionByte .ram o) ∧
    (∀ o : Nat, o < 1024 → s.inspect.scratch.read o = s.regionByte .scratch o)

/-! ### Pseudo-instructions -/

/-- R72: what the expansions do: `li`, `la` and `move` put their value in the register and change nothing else; `nop`
changes nothing. The expansions are the spec's decision D2. That `li` of an immediate below -32768 loads its 32-bit
two's-complement pattern is the model's choice (log entry 15). -/
def Obligations.PseudoInstructionsLoadTheirValue : Prop :=
  (∀ s : State, execAll Pseudo.nop.expand s = .next s) ∧
  (∀ (rt : Nat) (imm : Int) (s : State), rt ≠ 0 → rt < 32 → -2 ^ 31 ≤ imm → imm < 2 ^ 32 →
    ∃ t, execAll (Pseudo.li rt imm).expand s = .next t ∧ t.readReg rt = BitVec.ofInt 32 imm ∧
      SameRegsBut rt s t ∧ SameRest s t ∧ SameBytes s t ∧ t.pc = s.pc) ∧
  (∀ (rt : Nat) (addr : Word) (s : State), rt ≠ 0 → rt < 32 →
    ∃ t, execAll (Pseudo.la rt addr).expand s = .next t ∧ t.readReg rt = addr ∧
      SameRegsBut rt s t ∧ SameRest s t ∧ SameBytes s t ∧ t.pc = s.pc) ∧
  (∀ (rt rs : Nat) (s : State), rt ≠ 0 → rt < 32 → rs < 32 →
    ∃ t, execAll (Pseudo.move rt rs).expand s = .next t ∧ t.readReg rt = s.readReg rs ∧
      SameRegsBut rt s t ∧ SameRest s t ∧ SameBytes s t ∧ t.pc = s.pc)
end

