-- ==== Sys2Proof/Laws/State.lean ====
section
/-! SUPPORT. The small lemmas of State: each field after each update, and register reads after writes (spec 10_state.md
R14, R16). -/

namespace Sys2Proof.Machine

/-! ### Fields after the named updates -/

@[simp] theorem setPc_regs (s : State) (v : Word) : (s.setPc v).regs = s.regs := rfl
@[simp] theorem setPc_hi (s : State) (v : Word) : (s.setPc v).hi = s.hi := rfl
@[simp] theorem setPc_lo (s : State) (v : Word) : (s.setPc v).lo = s.lo := rfl
@[simp] theorem setPc_pc (s : State) (v : Word) : (s.setPc v).pc = v := rfl
@[simp] theorem setPc_slot (s : State) (v : Word) : (s.setPc v).slot = s.slot := rfl
@[simp] theorem setPc_status (s : State) (v : Word) : (s.setPc v).status = s.status := rfl
@[simp] theorem setPc_mem (s : State) (v : Word) : (s.setPc v).mem = s.mem := rfl

@[simp] theorem setSlot_regs (s : State) (x : Slot) : (s.setSlot x).regs = s.regs := rfl
@[simp] theorem setSlot_hi (s : State) (x : Slot) : (s.setSlot x).hi = s.hi := rfl
@[simp] theorem setSlot_lo (s : State) (x : Slot) : (s.setSlot x).lo = s.lo := rfl
@[simp] theorem setSlot_pc (s : State) (x : Slot) : (s.setSlot x).pc = s.pc := rfl
@[simp] theorem setSlot_slot (s : State) (x : Slot) : (s.setSlot x).slot = x := rfl
@[simp] theorem setSlot_status (s : State) (x : Slot) : (s.setSlot x).status = s.status := rfl
@[simp] theorem setSlot_mem (s : State) (x : Slot) : (s.setSlot x).mem = s.mem := rfl

@[simp] theorem setStatus_regs (s : State) (x : RunStatus) : (s.setStatus x).regs = s.regs := rfl
@[simp] theorem setStatus_hi (s : State) (x : RunStatus) : (s.setStatus x).hi = s.hi := rfl
@[simp] theorem setStatus_lo (s : State) (x : RunStatus) : (s.setStatus x).lo = s.lo := rfl
@[simp] theorem setStatus_pc (s : State) (x : RunStatus) : (s.setStatus x).pc = s.pc := rfl
@[simp] theorem setStatus_slot (s : State) (x : RunStatus) : (s.setStatus x).slot = s.slot := rfl
@[simp] theorem setStatus_status (s : State) (x : RunStatus) : (s.setStatus x).status = x := rfl
@[simp] theorem setStatus_mem (s : State) (x : RunStatus) : (s.setStatus x).mem = s.mem := rfl

@[simp] theorem setMem_regs (s : State) (m : Memory) : (s.setMem m).regs = s.regs := rfl
@[simp] theorem setMem_hi (s : State) (m : Memory) : (s.setMem m).hi = s.hi := rfl
@[simp] theorem setMem_lo (s : State) (m : Memory) : (s.setMem m).lo = s.lo := rfl
@[simp] theorem setMem_pc (s : State) (m : Memory) : (s.setMem m).pc = s.pc := rfl
@[simp] theorem setMem_slot (s : State) (m : Memory) : (s.setMem m).slot = s.slot := rfl
@[simp] theorem setMem_status (s : State) (m : Memory) : (s.setMem m).status = s.status := rfl
@[simp] theorem setMem_mem (s : State) (m : Memory) : (s.setMem m).mem = m := rfl

@[simp] theorem setRegs_regs (s : State) (r : Vector Word 32) : (s.setRegs r).regs = r := rfl
@[simp] theorem setRegs_hi (s : State) (r : Vector Word 32) : (s.setRegs r).hi = s.hi := rfl
@[simp] theorem setRegs_lo (s : State) (r : Vector Word 32) : (s.setRegs r).lo = s.lo := rfl
@[simp] theorem setRegs_pc (s : State) (r : Vector Word 32) : (s.setRegs r).pc = s.pc := rfl
@[simp] theorem setRegs_slot (s : State) (r : Vector Word 32) : (s.setRegs r).slot = s.slot := rfl
@[simp] theorem setRegs_status (s : State) (r : Vector Word 32) : (s.setRegs r).status = s.status := rfl
@[simp] theorem setRegs_mem (s : State) (r : Vector Word 32) : (s.setRegs r).mem = s.mem := rfl

/-! ### Fields after a fetch -/

@[simp] theorem prefetched_regs (s : State) (w : Word) : (prefetched s w).regs = s.regs := rfl
@[simp] theorem prefetched_hi (s : State) (w : Word) : (prefetched s w).hi = s.hi := rfl
@[simp] theorem prefetched_lo (s : State) (w : Word) : (prefetched s w).lo = s.lo := rfl
@[simp] theorem prefetched_pc (s : State) (w : Word) : (prefetched s w).pc = s.pc + 4#32 := rfl
@[simp] theorem prefetched_slot (s : State) (w : Word) : (prefetched s w).slot = .full w := rfl
@[simp] theorem prefetched_status (s : State) (w : Word) : (prefetched s w).status = s.status := rfl
@[simp] theorem prefetched_mem (s : State) (w : Word) : (prefetched s w).mem = s.mem := rfl

/-! ### Fields after a register write -/

@[simp] theorem writeReg_hi (s : State) (i : Nat) (v : Word) : (s.writeReg i v).hi = s.hi := by
  unfold State.writeReg; split <;> rfl

@[simp] theorem writeReg_lo (s : State) (i : Nat) (v : Word) : (s.writeReg i v).lo = s.lo := by
  unfold State.writeReg; split <;> rfl

@[simp] theorem writeReg_pc (s : State) (i : Nat) (v : Word) : (s.writeReg i v).pc = s.pc := by
  unfold State.writeReg; split <;> rfl

@[simp] theorem writeReg_slot (s : State) (i : Nat) (v : Word) : (s.writeReg i v).slot = s.slot := by
  unfold State.writeReg; split <;> rfl

@[simp] theorem writeReg_status (s : State) (i : Nat) (v : Word) : (s.writeReg i v).status = s.status := by
  unfold State.writeReg; split <;> rfl

@[simp] theorem writeReg_mem (s : State) (i : Nat) (v : Word) : (s.writeReg i v).mem = s.mem := by
  unfold State.writeReg; split <;> rfl

/-! ### Fields after a store to a region -/

@[simp] theorem writeRegionWord_regs (s : State) (r : Region) (o : Nat) (v : Word) :
    (s.writeRegionWord r o v).regs = s.regs := rfl

@[simp] theorem writeRegionWord_hi (s : State) (r : Region) (o : Nat) (v : Word) :
    (s.writeRegionWord r o v).hi = s.hi := rfl

@[simp] theorem writeRegionWord_lo (s : State) (r : Region) (o : Nat) (v : Word) :
    (s.writeRegionWord r o v).lo = s.lo := rfl

@[simp] theorem writeRegionWord_pc (s : State) (r : Region) (o : Nat) (v : Word) :
    (s.writeRegionWord r o v).pc = s.pc := rfl

@[simp] theorem writeRegionWord_slot (s : State) (r : Region) (o : Nat) (v : Word) :
    (s.writeRegionWord r o v).slot = s.slot := rfl

@[simp] theorem writeRegionWord_status (s : State) (r : Region) (o : Nat) (v : Word) :
    (s.writeRegionWord r o v).status = s.status := rfl

/-! ### Registers -/

@[simp] theorem readReg_zero (s : State) : s.readReg 0 = 0#32 := rfl

/-- A register read depends on the register file alone. -/
theorem readReg_congr {s t : State} (h : t.regs = s.regs) (i : Nat) : t.readReg i = s.readReg i := by
  simp [State.readReg, h]

@[simp] theorem setPc_readReg (s : State) (v : Word) (i : Nat) : (s.setPc v).readReg i = s.readReg i := rfl
@[simp] theorem setSlot_readReg (s : State) (x : Slot) (i : Nat) : (s.setSlot x).readReg i = s.readReg i := rfl
@[simp] theorem setStatus_readReg (s : State) (x : RunStatus) (i : Nat) :
    (s.setStatus x).readReg i = s.readReg i := rfl
@[simp] theorem setMem_readReg (s : State) (m : Memory) (i : Nat) : (s.setMem m).readReg i = s.readReg i := rfl
@[simp] theorem prefetched_readReg (s : State) (w : Word) (i : Nat) :
    (prefetched s w).readReg i = s.readReg i := rfl
@[simp] theorem writeRegionWord_readReg (s : State) (r : Region) (o : Nat) (v : Word) (i : Nat) :
    (s.writeRegionWord r o v).readReg i = s.readReg i := rfl

/-- A write to register 0 is discarded (R16). -/
@[simp] theorem writeReg_zero (s : State) (v : Word) : s.writeReg 0 v = s := rfl

/-- A read of another register than the one written. -/
theorem readReg_writeReg_other (s : State) {i d : Nat} (v : Word) (h : i ≠ d) :
    (s.writeReg d v).readReg i = s.readReg i := by
  unfold State.writeReg State.readReg
  split
  · rfl
  · split
    · rfl
    · simp [Vector.getD, Ne.symm h]

/-- A read of the register written, for an index the encoding has, register 0 apart. -/
theorem readReg_writeReg_same (s : State) {d : Nat} (v : Word) (h0 : d ≠ 0) (h : d < 32) :
    (s.writeReg d v).readReg d = v := by
  simp [State.writeReg, State.readReg, Vector.getD, h0, h]

/-- Writes to two different registers commute. -/
theorem writeReg_comm (s : State) {a b : Nat} (u v : Word) (h : a ≠ b) :
    (s.writeReg a u).writeReg b v = (s.writeReg b v).writeReg a u := by
  unfold State.writeReg
  split <;> split <;> try rfl
  simp only [State.setRegs]
  congr 1
  apply Vector.ext
  intro i hi
  simp only [Vector.getElem_setIfInBounds]
  split <;> split <;> simp_all

/-- Two states with the same register reads and the same other fields are equal, when both hold 0 in cell 0. -/
theorem State.eq_of_reads {s t : State} (hs : s.regs[0] = 0#32) (ht : t.regs[0] = 0#32)
    (hr : ∀ i, t.readReg i = s.readReg i) (h1 : t.hi = s.hi) (h2 : t.lo = s.lo) (h3 : t.pc = s.pc)
    (h4 : t.slot = s.slot) (h5 : t.status = s.status) (h6 : t.mem = s.mem) : t = s := by
  have hregs : t.regs = s.regs := by
    apply Vector.ext
    intro i hi
    by_cases h0 : i = 0
    · subst h0; rw [hs, ht]
    · have := hr i
      simpa [State.readReg, h0, Vector.getD, hi] using this
  cases s; cases t; simp_all

end Sys2Proof.Machine
end

