-- ==== Sys2Proof/Laws/Memory.lean ====
section
/-! SUPPORT. Byte storage: reads after writes, the canonical form, byte order (spec 20_memory.md R38, R49). -/

namespace Sys2Proof.Machine

/-! ### One byte -/

@[simp] theorem read_nil (a : Nat) : Memory.read [] a = Memory.unlisted := rfl

theorem read_cons (c : Host.Cell) (m : Memory) (a : Nat) :
    Memory.read (c :: m) a = if a = c.1 then c.2 else Memory.read m a := rfl

/-- An address below every listed one reads as an unlisted one. -/
theorem read_of_lt_all {m : Memory} {a : Nat} (h : ∀ d ∈ m, a < d.1) : m.read a = Memory.unlisted := by
  induction m with
  | nil => rfl
  | cons c m ih =>
    have hc : a < c.1 := h c (by simp)
    rw [read_cons, if_neg (by omega)]
    exact ih fun d hd => h d (List.mem_cons_of_mem _ hd)

theorem wf_cons {c : Host.Cell} {m : Memory} :
    Memory.wf (c :: m) = true ↔ c.2 ≠ Memory.unlisted ∧ (∀ d ∈ m, c.1 < d.1) ∧ m.wf = true := by
  simp [Memory.wf, and_assoc]

/-- `push` in front of higher addresses: the pushed address reads as the byte, every other as before. -/
theorem read_push {m : Memory} {a : Nat} (v : Byte) (h : ∀ d ∈ m, a < d.1) (b : Nat) :
    (m.push a v).read b = if b = a then v else m.read b := by
  unfold Memory.push
  split
  · next hv =>
    split
    · next hb => rw [hb, read_of_lt_all h, hv]
    · rfl
  · rfl

theorem wf_push {m : Memory} {a : Nat} (v : Byte) (h : ∀ d ∈ m, a < d.1) (hm : m.wf = true) :
    (m.push a v).wf = true := by
  unfold Memory.push
  split
  · exact hm
  · next hv => exact wf_cons.mpr ⟨hv, h, hm⟩

theorem mem_push {m : Memory} {a : Nat} {v : Byte} {d : Host.Cell} (h : d ∈ m.push a v) :
    d.1 = a ∨ d ∈ m := by
  unfold Memory.push at h
  split at h
  · exact .inr h
  · rcases List.mem_cons.mp h with rfl | h
    · exact .inl rfl
    · exact .inr h

/-- An entry of a written memory is at the written address, or was listed before. -/
theorem mem_write {m : Memory} {a : Nat} {v : Byte} {d : Host.Cell} (h : d ∈ m.write a v) :
    d.1 = a ∨ d ∈ m := by
  induction m with
  | nil => exact mem_push h
  | cons c m ih =>
    unfold Memory.write at h
    split at h
    · exact mem_push h
    · split at h
      · rcases mem_push h with h | h
        · exact .inl h
        · exact .inr (List.mem_cons_of_mem _ h)
      · rcases List.mem_cons.mp h with rfl | h
        · exact .inr (by simp)
        · rcases ih h with h | h
          · exact .inl h
          · exact .inr (List.mem_cons_of_mem _ h)

/-- A write keeps the canonical form. -/
theorem wf_write {m : Memory} (a : Nat) (v : Byte) (hm : m.wf = true) : (m.write a v).wf = true := by
  induction m with
  | nil => exact wf_push v (by simp) rfl
  | cons c m ih =>
    obtain ⟨hc, hlt, hm'⟩ := wf_cons.mp hm
    unfold Memory.write
    split
    · next h =>
      refine wf_push v ?_ hm
      intro d hd
      rcases List.mem_cons.mp hd with rfl | hd
      · exact h
      · exact Nat.lt_trans h (hlt d hd)
    · split
      · next h => exact wf_push v (fun d hd => h ▸ hlt d hd) hm'
      · refine wf_cons.mpr ⟨hc, ?_, ih hm'⟩
        intro d hd
        rcases mem_write hd with h | h
        · omega
        · exact hlt d h

/-- What a byte reads as after a write, in canonical memory. -/
theorem read_write {m : Memory} (hm : m.wf = true) (a : Nat) (v : Byte) (b : Nat) :
    (m.write a v).read b = if b = a then v else m.read b := by
  induction m with
  | nil => exact read_push v (by simp) b
  | cons c m ih =>
    obtain ⟨-, hlt, hm'⟩ := wf_cons.mp hm
    unfold Memory.write
    split
    · next h =>
      refine read_push v ?_ b
      intro d hd
      rcases List.mem_cons.mp hd with rfl | hd
      · exact h
      · exact Nat.lt_trans h (hlt d hd)
    · split
      · next h =>
        rw [read_push v (fun d hd => h ▸ hlt d hd), read_cons, ← h]
        split <;> rfl
      · next h =>
        rw [read_cons, read_cons, ih hm']
        split <;> split <;> first | rfl | omega

/-- A write leaves every other byte alone, whatever the memory. -/
theorem read_write_other {m : Memory} {a b : Nat} (v : Byte) (h : b ≠ a) : (m.write a v).read b = m.read b := by
  have hp : ∀ m' : Memory, (m'.push a v).read b = m'.read b := by
    intro m'
    unfold Memory.push
    split
    · rfl
    · rw [read_cons, if_neg h]
  induction m with
  | nil => exact hp []
  | cons c m ih =>
    unfold Memory.write
    split
    · exact hp _
    · split
      · next hc => rw [hp, read_cons, if_neg (by omega)]
      · rw [read_cons, read_cons, ih]

/-- Canonical memories that read the same everywhere are equal. -/
theorem Memory.eq_of_reads {m n : Memory} (hm : m.wf = true) (hn : n.wf = true)
    (h : ∀ a, m.read a = n.read a) : m = n := by
  induction m generalizing n with
  | nil =>
    cases n with
    | nil => rfl
    | cons d n =>
      obtain ⟨hd, -, -⟩ := wf_cons.mp hn
      have := h d.1
      simp [read_cons] at this
      exact absurd this.symm hd
  | cons c m ih =>
    obtain ⟨hc, hclt, hm'⟩ := wf_cons.mp hm
    cases n with
    | nil =>
      have := h c.1
      simp [read_cons] at this
      exact absurd this hc
    | cons d n =>
      obtain ⟨hd, hdlt, hn'⟩ := wf_cons.mp hn
      have key : c.1 = d.1 := by
        rcases Nat.lt_trichotomy c.1 d.1 with hlt | heq | hlt
        · have := h c.1
          rw [read_cons, if_pos rfl, read_of_lt_all] at this
          · exact absurd this hc
          · intro e he
            rcases List.mem_cons.mp he with rfl | he
            · exact hlt
            · exact Nat.lt_trans hlt (hdlt e he)
        · exact heq
        · have := h d.1
          rw [read_cons d, if_pos rfl, read_of_lt_all] at this
          · exact absurd this.symm hd
          · intro e he
            rcases List.mem_cons.mp he with rfl | he
            · exact hlt
            · exact Nat.lt_trans hlt (hclt e he)
      have hb : c.2 = d.2 := by
        have := h c.1
        rwa [read_cons, if_pos rfl, read_cons, if_pos key] at this
      have hcd : c = d := Prod.ext key hb
      subst hcd
      refine congrArg _ (ih hm' hn' fun a => ?_)
      by_cases ha : a = c.1
      · rw [ha, read_of_lt_all hclt, read_of_lt_all hdlt]
      · have := h a
        rwa [read_cons, if_neg ha, read_cons, if_neg ha] at this

/-! ### One word -/

/-- A word is the little-endian word of its four bytes (R38). -/
theorem wordOfBytes_bytes (v : Word) :
    wordOfBytes (byteOfWord v 0) (byteOfWord v 1) (byteOfWord v 2) (byteOfWord v 3) = v := by
  apply BitVec.eq_of_getLsbD_eq
  intro i hi
  unfold wordOfBytes byteOfWord
  simp only [BitVec.getLsbD_append, BitVec.getLsbD_extractLsb']
  rcases (by omega : i < 8 ∨ (8 ≤ i ∧ i < 16) ∨ (16 ≤ i ∧ i < 24) ∨ (24 ≤ i ∧ i < 32)) with h | h | h | h
  · simp [h]
  · simp [show ¬ i < 8 by omega, show i - 8 < 8 by omega, show 8 + (i - 8) = i by omega]
  · simp [show ¬ i < 8 by omega, show ¬ i - 8 < 8 by omega, show i - 8 - 8 < 8 by omega,
      show 16 + (i - 8 - 8) = i by omega]
  · simp [show ¬ i < 8 by omega, show ¬ i - 8 < 8 by omega, show ¬ i - 8 - 8 < 8 by omega,
      show i - 8 - 8 - 8 < 8 by omega, show 24 + (i - 8 - 8 - 8) = i by omega]

theorem wf_writeWord {m : Memory} (p : Nat) (v : Word) (hm : m.wf = true) : (m.writeWord p v).wf = true :=
  wf_write _ _ (wf_write _ _ (wf_write _ _ (wf_write _ _ hm)))

/-- An entry after a word write is one of the four written addresses, or was listed before. -/
theorem mem_writeWord {m : Memory} {p : Nat} {v : Word} {d : Host.Cell} (h : d ∈ m.writeWord p v) :
    (p ≤ d.1 ∧ d.1 < p + 4) ∨ d ∈ m := by
  rcases mem_write h with h | h
  · omega
  · rcases mem_write h with h | h
    · omega
    · rcases mem_write h with h | h
      · omega
      · rcases mem_write h with h | h
        · omega
        · exact .inr h

/-- The four bytes of a stored word, little-endian (R38). -/
theorem read_writeWord_in {m : Memory} (hm : m.wf = true) (p : Nat) (v : Word) {k : Nat} (hk : k < 4) :
    (m.writeWord p v).read (p + k) = byteOfWord v k := by
  have h1 := wf_write p (byteOfWord v 0) hm
  have h2 := wf_write (p + 1) (byteOfWord v 1) h1
  have h3 := wf_write (p + 2) (byteOfWord v 2) h2
  unfold Memory.writeWord
  rw [read_write h3, read_write h2, read_write h1, read_write hm]
  rcases (by omega : k = 0 ∨ k = 1 ∨ k = 2 ∨ k = 3) with rfl | rfl | rfl | rfl <;> simp

/-- Every byte outside the stored word is unchanged (R42). -/
theorem read_writeWord_out {m : Memory} (p : Nat) (v : Word) {a : Nat} (h : a < p ∨ p + 4 ≤ a) :
    (m.writeWord p v).read a = m.read a := by
  unfold Memory.writeWord
  rw [read_write_other _ (by omega), read_write_other _ (by omega), read_write_other _ (by omega),
    read_write_other _ (by omega)]

/-- A word reads back as it was written. -/
theorem readWord_writeWord {m : Memory} (hm : m.wf = true) (p : Nat) (v : Word) :
    (m.writeWord p v).readWord p = v := by
  have h := fun k (hk : k < 4) => read_writeWord_in hm p v hk
  unfold Memory.readWord
  have h0 := h 0 (by omega)
  rw [Nat.add_zero] at h0
  rw [h0, h 1 (by omega), h 2 (by omega), h 3 (by omega), wordOfBytes_bytes]

/-- A word clear of the written one reads as before. -/
theorem readWord_writeWord_other {m : Memory} (p q : Nat) (v : Word) (h : q + 4 ≤ p ∨ p + 4 ≤ q) :
    (m.writeWord p v).readWord q = m.readWord q := by
  unfold Memory.readWord
  rw [read_writeWord_out p v (by omega), read_writeWord_out p v (by omega), read_writeWord_out p v (by omega),
    read_writeWord_out p v (by omega)]

/-! ### The boot ROM image -/

theorem lt_of_mem_ofBytes {a : Nat} {l : List Byte} {d : Host.Cell} (h : d ∈ Memory.ofBytes a l) :
    a ≤ d.1 ∧ d.1 < a + l.length := by
  induction l generalizing a with
  | nil => cases h
  | cons b l ih =>
    rcases mem_push h with h | h
    · simp; omega
    · have := ih h
      simp; omega

theorem wf_ofBytes (a : Nat) (l : List Byte) : (Memory.ofBytes a l).wf = true := by
  induction l generalizing a with
  | nil => rfl
  | cons b l ih => exact wf_push b (fun d hd => (lt_of_mem_ofBytes hd).1) (ih _)

/-- Byte `i` of an image lies at offset `i` (R119). -/
theorem read_ofBytes (a : Nat) (l : List Byte) (i : Nat) :
    (Memory.ofBytes a l).read (a + i) = l.getD i Memory.unlisted := by
  induction l generalizing a i with
  | nil => rfl
  | cons b l ih =>
    rw [Memory.ofBytes, read_push b (fun d hd => (lt_of_mem_ofBytes hd).1)]
    cases i with
    | zero => simp
    | succ i =>
      rw [if_neg (by omega), show a + (i + 1) = a + 1 + i by omega, ih]
      simp

theorem read_filter_lt (m : Memory) {n a : Nat} (h : a < n) :
    Memory.read (m.filter fun c => decide (c.1 < n)) a = m.read a := by
  induction m with
  | nil => rfl
  | cons c m ih =>
    rw [List.filter_cons]
    split
    · rw [read_cons, read_cons, ih]
    · next hc =>
      rw [read_cons, ih, if_neg]
      intro hac
      simp only [decide_eq_true_eq] at hc
      omega

theorem wf_filter_lt {m : Memory} (n : Nat) (hm : m.wf = true) :
    Memory.wf (m.filter fun c => decide (c.1 < n)) = true := by
  induction m with
  | nil => rfl
  | cons c m ih =>
    obtain ⟨hc, hlt, hm'⟩ := wf_cons.mp hm
    rw [List.filter_cons]
    split
    · exact wf_cons.mpr ⟨hc, fun d hd => hlt d (List.mem_filter.mp hd).1, ih hm'⟩
    · exact ih hm'

theorem wf_append {m n : Memory} (hm : m.wf = true) (hn : n.wf = true)
    (h : ∀ c ∈ m, ∀ d ∈ n, c.1 < d.1) : Memory.wf (m ++ n) = true := by
  induction m with
  | nil => exact hn
  | cons c m ih =>
    obtain ⟨hc, hlt, hm'⟩ := wf_cons.mp hm
    refine wf_cons.mpr ⟨hc, ?_, ih hm' fun e he => h e (List.mem_cons_of_mem _ he)⟩
    intro d hd
    rcases List.mem_append.mp hd with hd | hd
    · exact hlt d hd
    · exact h c (by simp) d hd

theorem read_append_left {m n : Memory} {a : Nat} (h : ∀ d ∈ n, a < d.1) :
    Memory.read (m ++ n) a = m.read a := by
  induction m with
  | nil => exact read_of_lt_all h
  | cons c m ih => rw [List.cons_append, read_cons, read_cons, ih]

theorem read_append_right {m n : Memory} {a : Nat} (h : ∀ c ∈ m, c.1 < a) :
    Memory.read (m ++ n) a = n.read a := by
  induction m with
  | nil => rfl
  | cons c m ih =>
    have hc : c.1 < a := h c (by simp)
    rw [List.cons_append, read_cons, if_neg (by omega)]
    exact ih fun d hd => h d (List.mem_cons_of_mem _ hd)

/-- Supplying the ROM keeps the canonical form. -/
theorem wf_withRom {m : Memory} (image : List Byte) (hm : m.wf = true) : (m.withRom image).wf = true := by
  refine wf_append (wf_filter_lt _ hm) (wf_ofBytes _ _) ?_
  intro c hc d hd
  have h1 := (List.mem_filter.mp hc).2
  have h2 := (lt_of_mem_ofBytes hd).1
  simp only [decide_eq_true_eq] at h1
  omega

/-- The ROM byte at offset `i` is byte `i` of the image (R119). -/
theorem read_withRom_rom (m : Memory) (image : List Byte) (i : Nat) :
    (m.withRom image).read (Region.rom.base + i) = image.getD i Memory.unlisted := by
  rw [Memory.withRom, read_append_right, read_ofBytes]
  intro c hc
  have h1 := (List.mem_filter.mp hc).2
  simp only [decide_eq_true_eq] at h1
  omega

/-- Below the ROM, supplying it changes nothing. -/
theorem read_withRom_below (m : Memory) (image : List Byte) {a : Nat} (h : a < Region.rom.base) :
    (m.withRom image).read a = m.read a := by
  rw [Memory.withRom, read_append_left, read_filter_lt m h]
  intro d hd
  have := (lt_of_mem_ofBytes hd).1
  omega

end Sys2Proof.Machine
end

