-- ==== Sys2Proof/Laws/Bus.lean ====
section
/-! SUPPORT. The address map and the bus: what an access can answer (spec 20_memory.md R33 to R48). -/

namespace Sys2Proof.Machine

/-! ### Alignment and segments as numbers -/

/-- The alignment test on the number of the address (R40). -/
theorem aligned_iff (a : Word) : aligned a = true ↔ a.toNat % 4 = 0 := by
  unfold aligned
  rw [decide_eq_true_eq, ← BitVec.toNat_inj]
  simp

theorem not_aligned_iff (a : Word) : aligned a = false ↔ a.toNat % 4 ≠ 0 := by
  rw [← Bool.not_eq_true, aligned_iff]

/-- Masking keeps the low 29 bits (R33). -/
theorem toNat_mask (a : Word) : (a &&& 0x1FFFFFFF#32).toNat = a.toNat % 2 ^ 29 := by
  rw [BitVec.toNat_and]
  exact Nat.and_two_pow_sub_one_eq_mod a.toNat 29

/-- The number of the segment (R33). -/
theorem toNat_segment (a : Word) : (segment a).toNat = a.toNat / 2 ^ 29 := by
  have := a.isLt
  simp [segment, Nat.shiftRight_eq_div_pow]
  omega

/-- A backed segment, by number: 0, 4 or 5. -/
theorem backedSegment_iff (a : Word) :
    (segment a = 0b000#3 ∨ segment a = 0b100#3 ∨ segment a = 0b101#3) ↔
      (a.toNat / 2 ^ 29 = 0 ∨ a.toNat / 2 ^ 29 = 4 ∨ a.toNat / 2 ^ 29 = 5) := by
  simp only [← BitVec.toNat_inj, toNat_segment]
  rfl

theorem phys_eq (a : Word) :
    phys a = if a.toNat / 2 ^ 29 = 0 ∨ a.toNat / 2 ^ 29 = 4 ∨ a.toNat / 2 ^ 29 = 5 then some (a.toNat % 2 ^ 29)
      else none := by
  unfold phys
  rw [toNat_mask]
  exact if_congr (backedSegment_iff a) rfl rfl

/-! ### Regions -/

theorem contains_iff (r : Region) (p : Nat) : r.contains p = true ↔ r.base ≤ p ∧ p < r.base + r.size := by
  simp [Region.contains]

/-- The regions are disjoint (R35): an address inside `r` lies in no other region. -/
theorem contains_base_add (q r : Region) {o : Nat} (ho : o < r.size) :
    q.contains (r.base + o) = decide (q = r) := by
  rw [Bool.eq_iff_iff, contains_iff, decide_eq_true_eq]
  cases q <;> cases r <;> simp only [Region.base, Region.size, reduceCtorEq, iff_false, iff_true] at * <;> omega

/-- The region test answers the one region that contains the address (R35). -/
theorem resolve_eq_some (p : Nat) (r : Region) (o : Nat) :
    resolve p = some (r, o) ↔ p = r.base + o ∧ o < r.size := by
  simp only [resolve, resolveAmong]
  constructor
  · intro h
    repeat' split at h
    all_goals try cases h
    all_goals (rename_i hc; rw [contains_iff] at hc; simp only [Region.base, Region.size] at *; omega)
  · rintro ⟨rfl, ho⟩
    rw [contains_base_add .ram r ho, contains_base_add .scratch r ho, contains_base_add .hwreg r ho,
      contains_base_add .rom r ho]
    cases r <;> simp

/-- The region and offset of a logical address, by number (R36). -/
theorem locate_eq_some (a : Word) (r : Region) (o : Nat) :
    locate a = some (r, o) ↔
      (a.toNat / 2 ^ 29 = 0 ∨ a.toNat / 2 ^ 29 = 4 ∨ a.toNat / 2 ^ 29 = 5) ∧ a.toNat % 2 ^ 29 = r.base + o ∧
        o < r.size := by
  unfold locate
  rw [phys_eq]
  split
  · next h =>
    split at h
    · cases h
    · next hs => simp only [hs, false_and, reduceCtorEq]
  · next p h =>
    split at h
    · next hs =>
      cases h
      simp only [resolve_eq_some, hs, true_and]
    · cases h

theorem regionOf_eq_some (a : Word) (r : Region) : regionOf a = some r ↔ ∃ o, locate a = some (r, o) := by
  unfold regionOf
  cases h : locate a with
  | none => simp
  | some x => obtain ⟨r', o⟩ := x; simp

/-- The offset of an aligned access is a multiple of 4, and the access stays in the region (R48). -/
theorem locate_aligned {a : Word} {r : Region} {o : Nat} (h : locate a = some (r, o)) (ha : aligned a = true) :
    o % 4 = 0 ∧ o + 4 ≤ r.size := by
  obtain ⟨-, hm, ho⟩ := (locate_eq_some a r o).mp h
  rw [aligned_iff] at ha
  cases r <;> simp only [Region.base, Region.size] at * <;> omega

/-! ### The bus -/

/-- Everything the bus `load` can answer (R41). -/
theorem memRead_cases (s : State) (a : Word) :
    (aligned a = true ∧ ∃ o, locate a = some (.ram, o) ∧ memRead s a = .ok (s.regionWord .ram o)) ∨
    (aligned a = true ∧ ∃ o, locate a = some (.rom, o) ∧ memRead s a = .ok (s.regionWord .rom o)) ∨
    (aligned a = true ∧ regionOf a ≠ some .ram ∧ regionOf a ≠ some .rom ∧
      memRead s a = .error (.bus .unmapped a .fetch)) ∨
    (aligned a = false ∧ memRead s a = .error (.bus .unaligned a .fetch)) := by
  unfold memRead regionOf
  cases ha : aligned a with
  | false => simp
  | true =>
    cases hl : locate a with
    | none => simp
    | some x =>
      obtain ⟨r, o⟩ := x
      cases r <;> simp

/-- A load succeeds at a fetchable address and nowhere else. -/
theorem memRead_ok_iff (s : State) (a : Word) : (∃ w, memRead s a = .ok w) ↔ Fetchable a := by
  unfold Fetchable
  rcases memRead_cases s a with ⟨ha, o, hl, h⟩ | ⟨ha, o, hl, h⟩ | ⟨ha, h1, h2, h⟩ | ⟨ha, h⟩
  · simp [h, ha, (regionOf_eq_some a .ram).mpr ⟨o, hl⟩]
  · simp [h, ha, (regionOf_eq_some a .rom).mpr ⟨o, hl⟩]
  · simp [h, h1, h2]
  · simp [h, ha]

/-- A load depends on storage alone. -/
theorem memRead_congr {s t : State} (h : t.mem = s.mem) (a : Word) : memRead t a = memRead s a := by
  simp [memRead, State.regionWord, h]

/-- The fault of a load is genuine (R99). -/
theorem memRead_error {s : State} {a : Word} {f : Fault} (h : memRead s a = .error f) : f.genuine := by
  rcases memRead_cases s a with ⟨ha, o, hl, e⟩ | ⟨ha, o, hl, e⟩ | ⟨ha, h1, h2, e⟩ | ⟨ha, e⟩ <;> rw [e] at h <;>
    cases h
  · exact ⟨ha, h1, h2⟩
  · exact ha

/-- Everything the bus `store` can answer (R42). -/
theorem memWrite_cases (s : State) (a v : Word) :
    (aligned a = true ∧ ∃ r o, (r = .ram ∨ r = .scratch) ∧ locate a = some (r, o) ∧
      memWrite s a v = .ok (s.writeRegionWord r o v)) ∨
    (aligned a = true ∧ ∃ o, locate a = some (.hwreg, o) ∧ o ≠ 0 ∧ o ≠ 4 ∧ memWrite s a v = .ok s) ∨
    (aligned a = true ∧ ∃ o, locate a = some (.hwreg, o) ∧ (o = 0 ∨ o = 4) ∧
      memWrite s a v = .error (.expansionMapOverwrite o a v)) ∨
    (aligned a = true ∧ (regionOf a = none ∨ regionOf a = some .rom) ∧
      memWrite s a v = .error (.bus .unmapped a .store)) ∨
    (aligned a = false ∧ memWrite s a v = .error (.bus .unaligned a .store)) := by
  unfold memWrite regionOf isExpansionBase
  cases ha : aligned a with
  | false => simp
  | true =>
    cases hl : locate a with
    | none => simp
    | some x =>
      obtain ⟨r, o⟩ := x
      cases r <;> simp
      by_cases h0 : o = 0
      · simp [h0]
      · by_cases h4 : o = 4
        · simp [h4]
        · simp [h0, h4]

/-- The fault of a store is genuine (R99). -/
theorem memWrite_error {s : State} {a v : Word} {f : Fault} (h : memWrite s a v = .error f) : f.genuine := by
  rcases memWrite_cases s a v with ⟨ha, r, o, hr, hl, e⟩ | ⟨ha, o, hl, h0, h4, e⟩ | ⟨ha, o, hl, ho, e⟩ |
    ⟨ha, hr, e⟩ | ⟨ha, e⟩ <;> rw [e] at h <;> cases h
  · exact ⟨ha, ho, hl⟩
  · exact ⟨ha, hr⟩
  · exact ha

/-- Whether a store is turned away depends on its address and value alone (R42). -/
theorem memWrite_error_any {s : State} (t : State) {a v : Word} {f : Fault} (h : memWrite s a v = .error f) :
    memWrite t a v = .error f := by
  unfold memWrite at *
  cases ha : aligned a with
  | false => simpa [ha] using h
  | true =>
    cases hl : locate a with
    | none => simpa [ha, hl] using h
    | some x =>
      obtain ⟨r, o⟩ := x
      cases r with
      | ram => simp [ha, hl] at h
      | scratch => simp [ha, hl] at h
      | hwreg =>
        cases ho : isExpansionBase o with
        | true => simpa [ha, hl, ho] using h
        | false => simp [ha, hl, ho] at h
      | rom => simpa [ha, hl] using h

/-- A store that succeeds changes nothing but storage. -/
theorem memWrite_frame {s t : State} {a v : Word} (h : memWrite s a v = .ok t) :
    t.regs = s.regs ∧ t.hi = s.hi ∧ t.lo = s.lo ∧ t.pc = s.pc ∧ t.slot = s.slot ∧ t.status = s.status := by
  rcases memWrite_cases s a v with ⟨-, r, o, -, -, e⟩ | ⟨-, o, -, -, -, e⟩ | ⟨-, o, -, -, e⟩ | ⟨-, -, e⟩ |
    ⟨-, e⟩ <;> rw [e] at h <;> cases h <;> simp

theorem backed_iff (m : Memory) :
    m.backed = true ↔ ∀ c ∈ m, Region.ram.contains c.1 = true ∨ Region.scratch.contains c.1 = true ∨
      Region.rom.contains c.1 = true := by
  simp [Memory.backed, List.all_eq_true, or_assoc]

/-- A word written inside main RAM or the scratchpad keeps every entry in the backed regions. -/
theorem backed_writeWord {m : Memory} {r : Region} {o : Nat} (v : Word) (hr : r = .ram ∨ r = .scratch)
    (ho : o + 4 ≤ r.size) (hm : m.backed = true) : (m.writeWord (r.base + o) v).backed = true := by
  rw [backed_iff] at *
  intro c hc
  rcases mem_writeWord hc with h | h
  · rcases hr with rfl | rfl
    · exact .inl ((contains_iff _ _).mpr ⟨by omega, by omega⟩)
    · exact .inr (.inl ((contains_iff _ _).mpr ⟨by omega, by omega⟩))
  · exact hm c h

/-- A byte that lies in no region a store can write is unchanged by a store that succeeds. -/
theorem memWrite_read_other {s t : State} {a v : Word} (h : memWrite s a v = .ok t) {b : Nat}
    (h1 : Region.ram.contains b = false) (h2 : Region.scratch.contains b = false) :
    t.mem.read b = s.mem.read b := by
  rcases memWrite_cases s a v with ⟨ha, r, o, hr, hl, e⟩ | ⟨-, o, -, -, -, e⟩ | ⟨-, o, -, -, e⟩ | ⟨-, -, e⟩ |
    ⟨-, e⟩ <;> rw [e] at h <;> cases h
  · have hb := (locate_aligned hl ha).2
    refine read_writeWord_out _ _ ?_
    rw [← Bool.not_eq_true, contains_iff] at h1 h2
    rcases hr with rfl | rfl <;> omega
  · rfl

end Sys2Proof.Machine
end

