-- ==== Sys2Proof/Laws/Decode.lean ====
section
/-! SUPPORT. The codec: fields as numbers, fields of the three layouts, and what a decoded word can be (spec
30_encoding.md R58, R59, R67, R69). -/

namespace Sys2Proof

/-! ### Fields as numbers (R58) -/

theorem toNat_fieldOpcode (w : Word) : (fieldOpcode w).toNat = w.toNat / 2 ^ 26 % 2 ^ 6 := by
  simp [fieldOpcode, Nat.shiftRight_eq_div_pow]
theorem toNat_fieldRs (w : Word) : (fieldRs w).toNat = w.toNat / 2 ^ 21 % 2 ^ 5 := by
  simp [fieldRs, Nat.shiftRight_eq_div_pow]
theorem toNat_fieldRt (w : Word) : (fieldRt w).toNat = w.toNat / 2 ^ 16 % 2 ^ 5 := by
  simp [fieldRt, Nat.shiftRight_eq_div_pow]
theorem toNat_fieldRd (w : Word) : (fieldRd w).toNat = w.toNat / 2 ^ 11 % 2 ^ 5 := by
  simp [fieldRd, Nat.shiftRight_eq_div_pow]
theorem toNat_fieldShamt (w : Word) : (fieldShamt w).toNat = w.toNat / 2 ^ 6 % 2 ^ 5 := by
  simp [fieldShamt, Nat.shiftRight_eq_div_pow]
theorem toNat_fieldFunct (w : Word) : (fieldFunct w).toNat = w.toNat % 2 ^ 6 := by
  simp [fieldFunct]
theorem toNat_fieldImmediate (w : Word) : (fieldImmediate w).toNat = w.toNat % 2 ^ 16 := by
  simp [fieldImmediate]
theorem toNat_fieldTarget (w : Word) : (fieldTarget w).toNat = w.toNat % 2 ^ 26 := by
  simp [fieldTarget]

/-! ### The layouts as numbers (R59) -/

theorem toNat_append {m n : Nat} (x : BitVec m) (y : BitVec n) : (x ++ y).toNat = x.toNat * 2 ^ n + y.toNat := by
  rw [BitVec.toNat_append, Nat.shiftLeft_eq, Nat.mul_comm, Nat.two_pow_add_eq_or_of_lt y.isLt]

theorem toNat_formatR (op : BitVec 6) (rs rt rd shamt : BitVec 5) (funct : BitVec 6) :
    (formatR op rs rt rd shamt funct).toNat =
      op.toNat * 2 ^ 26 + rs.toNat * 2 ^ 21 + rt.toNat * 2 ^ 16 + rd.toNat * 2 ^ 11 + shamt.toNat * 2 ^ 6 +
        funct.toNat := by
  simp only [formatR, toNat_append]
  omega

theorem toNat_formatI (op : BitVec 6) (rs rt : BitVec 5) (imm : BitVec 16) :
    (formatI op rs rt imm).toNat = op.toNat * 2 ^ 26 + rs.toNat * 2 ^ 21 + rt.toNat * 2 ^ 16 + imm.toNat := by
  simp only [formatI, toNat_append]
  omega

theorem toNat_formatJ (op : BitVec 6) (target : BitVec 26) :
    (formatJ op target).toNat = op.toNat * 2 ^ 26 + target.toNat := by
  simp only [formatJ, toNat_append]

/-! ### The fields of each layout -/

section
variable (op funct : BitVec 6) (rs rt rd shamt : BitVec 5) (imm : BitVec 16) (target : BitVec 26)

@[simp] theorem opcode_formatR : fieldOpcode (formatR op rs rt rd shamt funct) = op := by
  apply BitVec.eq_of_toNat_eq; rw [toNat_fieldOpcode, toNat_formatR]; omega
@[simp] theorem rt_formatR : fieldRt (formatR op rs rt rd shamt funct) = rt := by
  apply BitVec.eq_of_toNat_eq; rw [toNat_fieldRt, toNat_formatR]; omega
@[simp] theorem rd_formatR : fieldRd (formatR op rs rt rd shamt funct) = rd := by
  apply BitVec.eq_of_toNat_eq; rw [toNat_fieldRd, toNat_formatR]; omega
@[simp] theorem shamt_formatR : fieldShamt (formatR op rs rt rd shamt funct) = shamt := by
  apply BitVec.eq_of_toNat_eq; rw [toNat_fieldShamt, toNat_formatR]; omega
@[simp] theorem funct_formatR : fieldFunct (formatR op rs rt rd shamt funct) = funct := by
  apply BitVec.eq_of_toNat_eq; rw [toNat_fieldFunct, toNat_formatR]; omega
@[simp] theorem opcode_formatI : fieldOpcode (formatI op rs rt imm) = op := by
  apply BitVec.eq_of_toNat_eq; rw [toNat_fieldOpcode, toNat_formatI]; omega
@[simp] theorem rs_formatI : fieldRs (formatI op rs rt imm) = rs := by
  apply BitVec.eq_of_toNat_eq; rw [toNat_fieldRs, toNat_formatI]; omega
@[simp] theorem rt_formatI : fieldRt (formatI op rs rt imm) = rt := by
  apply BitVec.eq_of_toNat_eq; rw [toNat_fieldRt, toNat_formatI]; omega
@[simp] theorem immediate_formatI : fieldImmediate (formatI op rs rt imm) = imm := by
  apply BitVec.eq_of_toNat_eq; rw [toNat_fieldImmediate, toNat_formatI]; omega
@[simp] theorem opcode_formatJ : fieldOpcode (formatJ op target) = op := by
  apply BitVec.eq_of_toNat_eq; rw [toNat_fieldOpcode, toNat_formatJ]; omega
@[simp] theorem target_formatJ : fieldTarget (formatJ op target) = target := by
  apply BitVec.eq_of_toNat_eq; rw [toNat_fieldTarget, toNat_formatJ]; omega

end

/-- A number below 32 is the number of its 5-bit field. -/
theorem toNat_field5 {n : Nat} (h : n < 32) : (field5 n).toNat = n := by
  simp only [field5, BitVec.toNat_ofNat]; omega

/-- The 5-bit field of a field's number is the field. -/
@[simp] theorem field5_toNat (b : BitVec 5) : field5 b.toNat = b := by
  apply BitVec.eq_of_toNat_eq; rw [toNat_field5 b.isLt]

/-! ### What a decoded word can be -/

/-- The seven answers of the decoder, each with the opcode (and funct) that selects it (R67). -/
theorem decodeWord_cases (w : Word) :
    (fieldOpcode w = opSpecial ∧ fieldFunct w = functSll ∧
      decodeWord w = .instr (.sll (fieldRd w).toNat (fieldRt w).toNat (fieldShamt w).toNat)) ∨
    (fieldOpcode w = opJ ∧ decodeWord w = .instr (.j (fieldTarget w))) ∨
    (fieldOpcode w = opAddiu ∧
      decodeWord w = .instr (.addiu (fieldRs w).toNat (fieldRt w).toNat (fieldImmediate w))) ∨
    (fieldOpcode w = opOri ∧
      decodeWord w = .instr (.ori (fieldRs w).toNat (fieldRt w).toNat (fieldImmediate w))) ∨
    (fieldOpcode w = opLui ∧ decodeWord w = .instr (.lui (fieldRt w).toNat (fieldImmediate w))) ∨
    (fieldOpcode w = opSw ∧
      decodeWord w = .instr (.sw (fieldRs w).toNat (fieldRt w).toNat (fieldImmediate w))) ∨
    (((fieldOpcode w = opSpecial ∧ fieldFunct w ≠ functSll) ∨
      (fieldOpcode w ≠ opSpecial ∧ fieldOpcode w ≠ opJ ∧ fieldOpcode w ≠ opAddiu ∧ fieldOpcode w ≠ opOri ∧
        fieldOpcode w ≠ opLui ∧ fieldOpcode w ≠ opSw)) ∧ decodeWord w = .illegal w) := by
  have d1 : opJ ≠ opSpecial := by decide
  have d2 : opAddiu ≠ opSpecial ∧ opAddiu ≠ opJ := by decide
  have d3 : opOri ≠ opSpecial ∧ opOri ≠ opJ ∧ opOri ≠ opAddiu := by decide
  have d4 : opLui ≠ opSpecial ∧ opLui ≠ opJ ∧ opLui ≠ opAddiu ∧ opLui ≠ opOri := by decide
  have d5 : opSw ≠ opSpecial ∧ opSw ≠ opJ ∧ opSw ≠ opAddiu ∧ opSw ≠ opOri ∧ opSw ≠ opLui := by decide
  unfold decodeWord
  by_cases h0 : fieldOpcode w = opSpecial
  · by_cases hf : fieldFunct w = functSll <;> simp [h0, hf]
  · by_cases h1 : fieldOpcode w = opJ
    · simp [h1, d1]
    · by_cases h2 : fieldOpcode w = opAddiu
      · simp [h2, d2]
      · by_cases h3 : fieldOpcode w = opOri
        · simp [h3, d3]
        · by_cases h4 : fieldOpcode w = opLui
          · simp [h4, d4]
          · by_cases h5 : fieldOpcode w = opSw
            · simp [h5, d5]
            · simp [h0, h1, h2, h3, h4, h5]

/-- A word that is not an instruction is reported as it is (R67). -/
theorem illegal_eq {w v : Word} (h : decodeWord w = .illegal v) : v = w := by
  rcases decodeWord_cases w with ⟨-, -, e⟩ | ⟨-, e⟩ | ⟨-, e⟩ | ⟨-, e⟩ | ⟨-, e⟩ | ⟨-, e⟩ | ⟨-, e⟩ <;>
    rw [e] at h <;> simp_all

/-! ### Masks of the opcode table (R66, R69) -/

/-- The mask of the I-format and J-format rows keeps the opcode field. -/
theorem and_opcodeMask (w : Word) : (w &&& 0xFC000000#32) = (fieldOpcode w).zeroExtend 32 <<< 26 := by
  apply BitVec.eq_of_getLsbD_eq
  intro i hi
  simp only [fieldOpcode, BitVec.getLsbD_and, BitVec.getLsbD_shiftLeft, BitVec.getLsbD_setWidth,
    BitVec.getLsbD_extractLsb']
  interval_cases i <;> simp

/-- The mask of SLL's row keeps the opcode and funct fields. -/
theorem and_opcodeFunctMask (w : Word) :
    (w &&& 0xFC00003F#32) = ((fieldOpcode w).zeroExtend 32 <<< 26) ||| (fieldFunct w).zeroExtend 32 := by
  apply BitVec.eq_of_getLsbD_eq
  intro i hi
  simp only [fieldOpcode, fieldFunct, BitVec.getLsbD_and, BitVec.getLsbD_or, BitVec.getLsbD_shiftLeft,
    BitVec.getLsbD_setWidth, BitVec.getLsbD_extractLsb']
  interval_cases i <;> simp

/-! ### A word from its own fields -/

theorem formatI_fields (w : Word) : formatI (fieldOpcode w) (fieldRs w) (fieldRt w) (fieldImmediate w) = w := by
  have := w.isLt
  apply BitVec.eq_of_toNat_eq
  rw [toNat_formatI, toNat_fieldOpcode, toNat_fieldRs, toNat_fieldRt, toNat_fieldImmediate]
  omega

theorem formatJ_fields (w : Word) : formatJ (fieldOpcode w) (fieldTarget w) = w := by
  have := w.isLt
  apply BitVec.eq_of_toNat_eq
  rw [toNat_formatJ, toNat_fieldOpcode, toNat_fieldTarget]
  omega

/-- The I-format word with `rs` cleared (R69). -/
theorem formatI_fields_noRs (w : Word) :
    formatI (fieldOpcode w) 0#5 (fieldRt w) (fieldImmediate w) = w &&& 0xFC1FFFFF#32 := by
  apply BitVec.eq_of_getLsbD_eq
  intro i hi
  simp only [formatI, fieldOpcode, fieldRt, fieldImmediate, BitVec.getLsbD_and, BitVec.getLsbD_append,
    BitVec.getLsbD_extractLsb']
  interval_cases i <;> simp

/-- The R-format word with `rs` cleared (R69). -/
theorem formatR_fields_noRs (w : Word) :
    formatR (fieldOpcode w) 0#5 (fieldRt w) (fieldRd w) (fieldShamt w) (fieldFunct w) = w &&& 0xFC1FFFFF#32 := by
  apply BitVec.eq_of_getLsbD_eq
  intro i hi
  simp only [formatR, fieldOpcode, fieldRt, fieldRd, fieldShamt, fieldFunct, BitVec.getLsbD_and,
    BitVec.getLsbD_append, BitVec.getLsbD_extractLsb']
  interval_cases i <;> simp

end Sys2Proof
end

