-- ==== Sys2Proof/Laws/Exec.lean ====
section
/-! SUPPORT. Operands as numbers, and everything a handler can answer (spec 30_encoding.md R61 to R63; 40_cycle.md R80;
41_alu.md; 42_store.md; 43_jump.md). -/

namespace Sys2Proof.Machine

/-! ### Operands as numbers -/

theorem toNat_upperImmediate (imm : BitVec 16) : (upperImmediate imm).toNat = imm.toNat * 65536 := by
  have : (upperImmediate imm).toNat = imm.toNat * 2 ^ 16 + (0#16).toNat := toNat_append imm 0#16
  simpa using this

/-- Adding a sign-extended immediate is integer addition, narrowed to 32 bits (R61, R87). -/
theorem toNat_add_sext16 (x : Word) (imm : BitVec 16) :
    ((x + sext16 imm).toNat : Int) = ((x.toNat : Int) + imm.toInt) % 2 ^ 32 := by
  have h : (sext16 imm).toInt = imm.toInt := BitVec.toInt_signExtend_of_le (by omega)
  have hx : (x.toNat : Int) % 2 ^ 32 = x.toNat := Int.emod_eq_of_lt (by omega) (by have := x.isLt; omega)
  have h3 : ((sext16 imm).toNat : Int) = imm.toInt % 2 ^ 32 := by
    rw [← h, BitVec.toInt_eq_toNat_bmod, Int.bmod_def]
    have := (sext16 imm).isLt
    split <;> omega
  rw [BitVec.toNat_add]
  push_cast
  omega

/-- The jump target keeps the top 4 bits and replaces the low 28 (R63). -/
theorem toNat_jumpTarget (pc : Word) (target : BitVec 26) :
    (jumpTarget pc target).toNat = pc.toNat / 2 ^ 28 * 2 ^ 28 + target.toNat * 4 := by
  have h : jumpTarget pc target = pc.extractLsb' 28 4 ++ target ++ 0#2 := by
    apply BitVec.eq_of_getLsbD_eq
    intro i hi
    simp only [jumpTarget, BitVec.getLsbD_or, BitVec.getLsbD_and, BitVec.getLsbD_append, BitVec.getLsbD_shiftLeft,
      BitVec.getLsbD_setWidth, BitVec.getLsbD_extractLsb']
    interval_cases i <;> simp
  have hp := pc.isLt
  rw [h, toNat_append, toNat_append]
  simp only [BitVec.extractLsb'_toNat, Nat.shiftRight_eq_div_pow, BitVec.toNat_ofNat]
  omega

/-! ### Handlers -/

theorem execSw_ok {rs rt : Nat} {imm : BitVec 16} {s t : State}
    (h : memWrite s (s.effectiveAddress rs imm) (s.readReg rt) = .ok t) : execSw rs rt imm s = .next t := by
  simp [execSw, h]

theorem execSw_error {rs rt : Nat} {imm : BitVec 16} {s : State} {f : Fault}
    (h : memWrite s (s.effectiveAddress rs imm) (s.readReg rt) = .error f) : execSw rs rt imm s = raise f s := by
  simp [execSw, h]

/-- Everything a handler can answer: a write of its one destination register, a store done, a store turned away, or a
jump (R80). -/
theorem exec_cases (i : Instr) (s : State) :
    (∃ d v, i.writes = [d] ∧ exec i s = .next (s.writeReg d v)) ∨
    (∃ rs rt imm t, i = .sw rs rt imm ∧ memWrite s (s.effectiveAddress rs imm) (s.readReg rt) = .ok t ∧
      exec i s = .next t) ∨
    (∃ rs rt imm f, i = .sw rs rt imm ∧ memWrite s (s.effectiveAddress rs imm) (s.readReg rt) = .error f ∧
      exec i s = .next (s.setStatus (.faulted f))) ∨
    (∃ target, i = .j target ∧ exec i s = .next (s.setPc (jumpTarget s.pc target))) := by
  cases i with
  | sll rd rt shamt => exact .inl ⟨rd, _, rfl, rfl⟩
  | lui rt imm => exact .inl ⟨rt, _, rfl, rfl⟩
  | ori rs rt imm => exact .inl ⟨rt, _, rfl, rfl⟩
  | addiu rs rt imm => exact .inl ⟨rt, _, rfl, rfl⟩
  | sw rs rt imm =>
    cases h : memWrite s (s.effectiveAddress rs imm) (s.readReg rt) with
    | ok t => exact .inr (.inl ⟨rs, rt, imm, t, rfl, h, execSw_ok h⟩)
    | error f => exact .inr (.inr (.inl ⟨rs, rt, imm, f, rfl, h, execSw_error h⟩))
  | j target => exact .inr (.inr (.inr ⟨target, rfl, rfl⟩))

end Sys2Proof.Machine
end

