-- ==== Sys2Proof/Laws/PerInstr.lean ====
section
/-! SUPPORT. Facts stated for each instruction as syntax: the word the encoder makes carries the match value of the
instruction's row of the opcode table (spec 30_encoding.md R66). -/

namespace Sys2Proof.Laws.EncodingMatchesTable

/-- The encoded word carries, under the row's mask, the row's match value. -/
def Statement (i : Instr) : Prop := encode i &&& i.tableMask = i.tableMatch

theorem sll (rd rt shamt : Nat) : Statement (.sll rd rt shamt) := by
  simp only [Statement, Instr.tableMask, Instr.tableMatch, and_opcodeFunctMask, encode, opcode_formatR, funct_formatR]
  decide

theorem lui (rt : Nat) (imm : BitVec 16) : Statement (.lui rt imm) := by
  simp only [Statement, Instr.tableMask, Instr.tableMatch, and_opcodeMask, encode, opcode_formatI]
  decide

theorem ori (rs rt : Nat) (imm : BitVec 16) : Statement (.ori rs rt imm) := by
  simp only [Statement, Instr.tableMask, Instr.tableMatch, and_opcodeMask, encode, opcode_formatI]
  decide

theorem addiu (rs rt : Nat) (imm : BitVec 16) : Statement (.addiu rs rt imm) := by
  simp only [Statement, Instr.tableMask, Instr.tableMatch, and_opcodeMask, encode, opcode_formatI]
  decide

theorem sw (rs rt : Nat) (imm : BitVec 16) : Statement (.sw rs rt imm) := by
  simp only [Statement, Instr.tableMask, Instr.tableMatch, and_opcodeMask, encode, opcode_formatI]
  decide

theorem j (target : BitVec 26) : Statement (.j target) := by
  simp only [Statement, Instr.tableMask, Instr.tableMatch, and_opcodeMask, encode, opcode_formatJ]
  decide

end Sys2Proof.Laws.EncodingMatchesTable
end

