-- ==== Sys2Proof/Laws/Step.lean ====
section
/-! SUPPORT. Everything one step can do, and a property of every step carried along a run (spec 40_cycle.md R74, R75;
70_reset_and_hazards.md R126). -/

namespace Sys2Proof.Machine

/-- A fetch depends on the program counter and storage alone. -/
theorem fetch_congr {s t : State} (hp : t.pc = s.pc) (hm : t.mem = s.mem) : fetch t = fetch s := by
  unfold fetch
  rw [hp, memRead_congr hm]

/-- Everything one step can do (R74, R75): a faulted state stops; a running one faults on its fetch, primes an empty
slot, raises on an illegal word, or runs the retiring instruction's handler. -/
theorem step_cases (s : State) :
    (∃ f, s.status = .faulted f ∧ step s = .fault f) ∨
    (s.status = .running ∧ ∃ f, fetch s = .error f ∧ step s = .next (s.setStatus (.faulted f))) ∨
    (s.status = .running ∧ ∃ w, fetch s = .ok w ∧ s.slot = .empty ∧ step s = .next (prefetched s w)) ∨
    (s.status = .running ∧ ∃ w r, fetch s = .ok w ∧ s.slot = .full r ∧ decodeWord r = .illegal r ∧
      step s = .next ((prefetched s w).setStatus (.faulted (.illegalInstruction r)))) ∨
    (s.status = .running ∧ ∃ w r i, fetch s = .ok w ∧ s.slot = .full r ∧ decodeWord r = .instr i ∧
      step s = exec i (prefetched s w)) := by
  unfold step
  cases hs : s.status with
  | faulted f => exact .inl ⟨f, rfl, rfl⟩
  | running =>
    refine .inr ?_
    unfold cycle
    cases hf : fetch s with
    | error f => exact .inl ⟨rfl, f, rfl, rfl⟩
    | ok w =>
      refine .inr ?_
      cases hslot : s.slot with
      | empty => exact .inl ⟨rfl, w, rfl, rfl, rfl⟩
      | full r =>
        refine .inr ?_
        cases hd : decodeWord r with
        | illegal v =>
          obtain rfl := illegal_eq hd
          exact .inl ⟨rfl, w, v, rfl, rfl, hd, by simp [retireSlot, retire, hd, raise]⟩
        | instr i => exact .inr ⟨rfl, w, r, i, rfl, rfl, hd, by simp [retireSlot, retire, hd]⟩

/-! ### Runs -/

theorem run_succ_next {k : Nat} {s u : State} (h : step s = .next u) :
    Host.Core.run core (k + 1) s = Host.Core.run core k u := by
  have h' : core.step s = .next u := h
  simp only [Host.Core.run, h']

theorem run_succ_fault {k : Nat} {s : State} {f : Fault} (h : step s = .fault f) :
    Host.Core.run core (k + 1) s = .fault f := by
  have h' : core.step s = .fault f := h
  simp only [Host.Core.run, h']

theorem run_succ_refused {k : Nat} {s : State} {r : Refusal} (h : step s = .refused r) :
    Host.Core.run core (k + 1) s = .refused r := by
  have h' : core.step s = .refused r := h
  simp only [Host.Core.run, h']

/-- A property that every step keeps holds at the end of every run. -/
theorem run_induction {P : State → Prop} (hstep : ∀ s t, P s → step s = .next t → P t) {k : Nat} {s t : State}
    (hs : P s) (h : Host.Core.run core k s = .next t) : P t := by
  induction k generalizing s with
  | zero => cases h; exact hs
  | succ k ih =>
    cases hst : step s with
    | next u => rw [run_succ_next hst] at h; exact ih (hstep s u hs hst) h
    | fault f => rw [run_succ_fault hst] at h; cases h
    | refused r => rw [run_succ_refused hst] at h; cases h

end Sys2Proof.Machine
end

