-- ==== Sys2Proof/Tests/Slice0.lean ====
section
/-! SUPPORT. Tests of the model against the spec's own examples and vectors (spec 95_test_vectors.md), a smoke test of
WellFormed, and a witness for the hypotheses of each statement. -/

namespace Sys2Proof.Tests

open Sys2Proof.Machine

/-! ### Builders -/

/-- A running state with some registers, a program counter, a slot, and some words of storage. -/
def launch (regs : List (Nat × Word)) (pc : Word) (slot : Slot) (words : List (Nat × Word)) : State :=
  (((regs.foldl (fun s p => s.writeReg p.1 p.2) State.reset).setPc pc).setSlot slot).setMem
    (words.foldl (fun m p => m.writeWord p.1 p.2) [])

/-- Registers only, the rest as at reset. -/
def withRegs (regs : List (Nat × Word)) : State := launch regs 0xBFC00008#32 .empty []

/-- The next state of an outcome, if it is one. -/
def nextOf : Host.Outcome State Fault Refusal → Option State
  | .next s => some s
  | .fault _ => none
  | .refused _ => none

/-- A register of the next state. -/
def regAfter (i : Instr) (s : State) (r : Nat) : Option Word := (nextOf (exec i s)).map (·.readReg r)

/-- The status of the next state. -/
def statusAfter (i : Instr) (s : State) : Option RunStatus := (nextOf (exec i s)).map (·.status)

/-- Four bytes of a region of the next state. -/
def bytesAfter (i : Instr) (s : State) (r : Region) (o : Nat) : Option (List Byte) :=
  (nextOf (exec i s)).map fun t => (List.range 4).map fun k => t.regionByte r (o + k)

/-! ### WellFormed: each check refuses an ill-formed term -/

theorem test_wf_sll : (Instr.sll 31 31 31).wf = true := by decide
theorem test_wf_sll_rd : (Instr.sll 32 8 4).wf = false := by decide
theorem test_wf_sll_rt : (Instr.sll 9 32 4).wf = false := by decide
theorem test_wf_sll_shamt : (Instr.sll 9 8 32).wf = false := by decide
theorem test_wf_lui_rt : (Instr.lui 32 0#16).wf = false := by decide
theorem test_wf_ori_rs : (Instr.ori 32 1 0#16).wf = false := by decide
theorem test_wf_ori_rt : (Instr.ori 1 32 0#16).wf = false := by decide
theorem test_wf_addiu_rs : (Instr.addiu 32 1 0#16).wf = false := by decide
theorem test_wf_addiu_rt : (Instr.addiu 1 32 0#16).wf = false := by decide
theorem test_wf_sw_rs : (Instr.sw 32 1 0#16).wf = false := by decide
theorem test_wf_sw_rt : (Instr.sw 1 32 0#16).wf = false := by decide

/-! ### Decoding: words written out field by field from the layouts of R59 and the numbers of R66 -/

/-- SLL $9, $8, 4: opcode, rs, rt, rd, shamt, funct (V3). -/
theorem test_decode_sll : decodeWord (0b000000#6 ++ 0b00000#5 ++ 0b01000#5 ++ 0b01001#5 ++ 0b00100#5 ++ 0b000000#6)
    = .instr (.sll 9 8 4) := by decide
/-- SLL with its unused `rs` field not 0 (V6). -/
theorem test_decode_sll_rs_ignored : decodeWord 0x00200000#32 = .instr (.sll 0 0 0) := by decide
/-- LUI $31, 1 with its unused `rs` field not 0 (V7). -/
theorem test_decode_lui : decodeWord (0b001111#6 ++ 0b00001#5 ++ 0b11111#5 ++ 0b0000000000000001#16)
    = .instr (.lui 31 1#16) := by decide
/-- ORI $8, $8, 0x5678 (A11). -/
theorem test_decode_ori : decodeWord (0b001101#6 ++ 0b01000#5 ++ 0b01000#5 ++ 0b0101011001111000#16)
    = .instr (.ori 8 8 0x5678#16) := by decide
/-- ADDIU $10, $9, -1 (V14). -/
theorem test_decode_addiu : decodeWord (0b001001#6 ++ 0b01001#5 ++ 0b01010#5 ++ 0b1111111111111111#16)
    = .instr (.addiu 9 10 0xFFFF#16) := by decide
/-- SW $2, -16($2) (V1). -/
theorem test_decode_sw : decodeWord 0xAC42FFF0#32 = .instr (.sw 2 2 0xFFF0#16) := by decide
/-- SW $1, 0x100($0) (W1). -/
theorem test_decode_sw_base0 : decodeWord (0b101011#6 ++ 0b00000#5 ++ 0b00001#5 ++ 0b0000000100000000#16)
    = .instr (.sw 0 1 0x100#16) := by decide
/-- J with target field 0x3F00004 (V4). -/
theorem test_decode_j : decodeWord (0b000010#6 ++ 0b11111100000000000000000100#26) = .instr (.j 0x3F00004#26) := by
  decide
/-- Illegal words (V2, V8, V10 to V13). -/
theorem test_decode_illegal : [0xFFFFFFFF#32, 0x00000001#32, 0x03E00008#32, 0x20010001#32, 0x0C000000#32,
    0x8C000000#32].all (fun w => decodeWord w = .illegal w) = true := by decide
/-- Bytes of SLL $9, $8, 4 as memory holds them, with a byte after them, and too few bytes. -/
theorem test_decode_bytes : decodeBytes [0x00#8, 0x49#8, 0x08#8, 0x00#8, 0xAA#8] = .instr (.sll 9 8 4) [0xAA#8] ∧
    decodeBytes [0x00#8, 0x49#8, 0x08#8] = .truncated [0x00#8, 0x49#8, 0x08#8] := by decide
/-- The encodings that R71 gives for the words of P1 and P3. -/
theorem test_encode : encode (.sll 9 8 4) = 0x00084900#32 ∧ encode (.lui 8 0x1234#16) = 0x3C081234#32 ∧
    encode (.ori 8 8 0x5678#16) = 0x35085678#32 ∧ encode (.addiu 9 10 0xFFFF#16) = 0x252AFFFF#32 ∧
    encode (.sw 2 2 0xFFF0#16) = 0xAC42FFF0#32 ∧ encode (.j 0x3F00004#26) = 0x0BF00004#32 := by decide
/-- The table's numbering of bits. -/
theorem test_decode_table : decodeTableWord 32 0x0BF00004 = some (.j 0x3F00004#26) ∧
    decodeTableWord 32 0x20010001 = none := by decide

/-! ### Handlers (95_test_vectors.md, sections 2.4 to 2.6) -/

/-- A3. -/
theorem test_sll_31 : regAfter (.sll 9 8 31) (withRegs [(8, 0x00000003#32)]) 9 = some 0x80000000#32 := by decide
/-- A5: the source is the destination. -/
theorem test_sll_same : regAfter (.sll 8 8 1) (withRegs [(8, 0x40000000#32)]) 8 = some 0x80000000#32 := by decide
/-- A9: no sign extension, low half 0 whatever the register held. -/
theorem test_lui : regAfter (.lui 8 0xFFFF#16) (withRegs [(8, 0x12345678#32)]) 8 = some 0xFFFF0000#32 := by decide
/-- A11. -/
theorem test_ori_same : regAfter (.ori 8 8 0x5678#16) (withRegs [(8, 0x12340000#32)]) 8 = some 0x12345678#32 := by decide
/-- A13: zero extension. -/
theorem test_ori_zext : regAfter (.ori 0 9 0x8000#16) (withRegs []) 9 = some 0x00008000#32 := by decide
/-- A16: signed overflow wraps, no fault. -/
theorem test_addiu_overflow : regAfter (.addiu 1 2 1#16) (withRegs [(1, 0x7FFFFFFF#32)]) 2 = some 0x80000000#32 := by
  decide
/-- A19: sign extension, overflow downwards. -/
theorem test_addiu_minus : regAfter (.addiu 1 2 0xFFFF#16) (withRegs [(1, 0x80000000#32)]) 2 = some 0x7FFFFFFF#32 := by
  decide
/-- W2: base and value the same register, a view in segment 0b100. -/
theorem test_sw_alias : bytesAfter (.sw 2 2 0xFFF0#16) (withRegs [(2, 0x80000114#32)]) .ram 0x104 =
    some [0x14#8, 0x01#8, 0x00#8, 0x80#8] := by decide
/-- W10: the scratchpad through segment 0b101. -/
theorem test_sw_scratch : bytesAfter (.sw 1 2 0#16) (withRegs [(1, 0xBF800010#32), (2, 0x01020304#32)]) .scratch 0x10 =
    some [0x04#8, 0x03#8, 0x02#8, 0x01#8] := by decide
/-- J1. -/
theorem test_j : (nextOf (exec (.j 0x03F00004#26) ((withRegs []).setPc 0xBFC0000C#32))).map (·.pc) =
    some 0xBFC00010#32 := by decide
/-- J6: the top 4 bits are kept. -/
theorem test_j_block : (nextOf (exec (.j 0x3F00000#26) ((withRegs []).setPc 0xA0000008#32))).map (·.pc) =
    some 0xAFC00000#32 := by decide

/-! ### Faults of SW (W5 to W8), and the window (W9) -/

theorem test_sw_rom : statusAfter (.sw 1 0 0#16) (withRegs [(1, 0xBFC00000#32)]) =
    some (.faulted (.bus .unmapped 0xBFC00000#32 .store)) := by decide
theorem test_sw_unaligned : statusAfter (.sw 1 0 2#16) (withRegs [(1, 0x100#32)]) =
    some (.faulted (.bus .unaligned 0x102#32 .store)) := by decide
theorem test_sw_expansion : statusAfter (.sw 1 2 4#16) (withRegs [(1, 0xBF801000#32), (2, 0#32)]) =
    some (.faulted (.expansionMapOverwrite 4 0xBF801004#32 0#32)) := by decide
theorem test_sw_window : nextOf (exec (.sw 1 2 0x20#16) (withRegs [(1, 0x1F801000#32), (2, 7#32)])) =
    some (withRegs [(1, 0x1F801000#32), (2, 7#32)]) := by decide

/-! ### Bus loads (M4 to M6, M9, M14, M17, M22, S5) -/

theorem test_load_map :
    memRead State.reset 0x001FFFFC#32 = .ok 0#32 ∧ memRead State.reset 0xBFC00000#32 = .ok 0#32 ∧
    [0x00200000#32, 0x1F800000#32, 0x1F801000#32, 0xBFC80000#32, 0xFFFE0130#32].all
      (fun a => memRead State.reset a = .error (.bus .unmapped a .fetch)) = true ∧
    memRead State.reset 0xFFFFFFFF#32 = .error (.bus .unaligned 0xFFFFFFFF#32 .fetch) := by decide

/-! ### Cycles (Y1, Y3, Y5, Y6, and S7 in its corrected form) -/

/-- Y1. -/
theorem test_first_cycle : (nextOf (step State.reset)).map (fun t => (t.pc, t.slot, t.status)) =
    some (0xBFC00004#32, .full 0#32, .running) := by decide
/-- Y3: the illegal word retires after the fetch and the advance. -/
theorem test_illegal_cycle :
    (nextOf (step (launch [] 0xBFC00004#32 (.full 0xFFFFFFFF#32) [(0x1FC00004, 5#32)]))).map
      (fun t => (t.pc, t.slot, t.status)) =
    some (0xBFC00008#32, .full 5#32, .faulted (.illegalInstruction 0xFFFFFFFF#32)) := by decide
/-- Y5: a fetch from the scratchpad faults, and leaves `pc` and `slot`. -/
theorem test_scratch_fetch : (nextOf (step (launch [] 0x1F800000#32 (.full 0#32) []))).map
      (fun t => (t.pc, t.slot, t.status)) =
    some (0x1F800000#32, .full 0#32, .faulted (.bus .unmapped 0x1F800000#32 .fetch)) := by decide
/-- Y6: the fetch fault comes first. -/
theorem test_fetch_before_decode : (nextOf (step (launch [] 6#32 (.full 0xFFFFFFFF#32) []))).map (·.status) =
    some (.faulted (.bus .unaligned 6#32 .fetch)) := by decide

/-- The state of S7 before its second cycle: the J at 0x1000 is in the slot. -/
def delayState : State := launch [] 0x1004#32 (.full 0x08000404#32)
  [(0x1004, 0x34050007#32), (0x1008, 0x34060009#32)]
/-- The state of S7 before its third cycle. -/
def delayState2 : State := launch [] 0x1010#32 (.full 0x34050007#32)
  [(0x1004, 0x34050007#32), (0x1008, 0x34060009#32)]

theorem test_delay_jump : nextOf (step delayState) = some delayState2 := by decide
theorem test_delay_slot : (nextOf (step delayState2)).map (fun t => (t.readReg 5, t.readReg 6, t.pc, t.slot)) =
    some (7#32, 0#32, 0x1014#32, .full 0#32) := by decide
/-- P5b: an unbacked target; the delay-slot word does not run. -/
theorem test_delay_unbacked : (nextOf (step (launch [] 0xB0000000#32 (.full 0x34050001#32) []))).map
      (fun t => (t.readReg 5, t.pc, t.status)) =
    some (0#32, 0xB0000000#32, .faulted (.bus .unmapped 0xB0000000#32 .fetch)) := by decide
/-- The word placed by `withFetchWord` runs in the very next step, right after reset. -/
theorem test_withFetchWord : (nextOf (step (State.reset.withFetchWord 32 0x34050007))).map (·.readReg 5) =
    some 7#32 := by decide

/-! ### Witnesses: states and operands that meet the hypotheses of each statement -/

/-- A running state in main RAM whose slot holds SW $1, 0($2), at the word that the cycle fetches. -/
def storeState (base : Word) : State := launch [(1, 0x34020077#32), (2, base)] 0x100C#32 (.full 0xAC410000#32)
  [(0x100C, 0x34020011#32)]
/-- An illegal word in the slot of a state that can fetch. -/
def illegalState : State := launch [] 0xBFC00004#32 (.full 0xFFFFFFFF#32) []
/-- A no-op in the slot of a state that can fetch. -/
def nopState : State := launch [] 0x00001000#32 (.full 0#32) []

theorem witness_EncodeThenDecode : (Instr.sll 31 31 31).wf = true ∧ (Instr.lui 31 0xFFFF#16).wf = true ∧
    (Instr.ori 31 31 0xFFFF#16).wf = true ∧ (Instr.addiu 31 31 0xFFFF#16).wf = true ∧
    (Instr.sw 31 31 0xFFFF#16).wf = true ∧ (Instr.j 0x3FFFFFF#26).wf = true := by decide

theorem witness_DecodedWordEncodesBack : decodeWord 0x3C3F0001#32 = .instr (.lui 31 1#16) ∧
    0x3FFF0001#32 &&& (Instr.lui 31 1#16).readMask = 0x3C3F0001#32 &&& (Instr.lui 31 1#16).readMask := by decide

/-- One word for each clause of the opcode map, at the edges of its fields. -/
theorem witness_DecodeFollowsTheOpcodeMap :
    (0x03FFFFC0#32).toNat / 2 ^ 26 = 0 ∧ (0x03FFFFC0#32).toNat % 64 = 0 ∧
    (0x0000003F#32).toNat / 2 ^ 26 = 0 ∧ (0x0000003F#32).toNat % 64 ≠ 0 ∧
    (0x0BFFFFFF#32).toNat / 2 ^ 26 = 0x02 ∧ (0x27FFFFFF#32).toNat / 2 ^ 26 = 0x09 ∧
    (0x37FFFFFF#32).toNat / 2 ^ 26 = 0x0D ∧ (0x3FFFFFFF#32).toNat / 2 ^ 26 = 0x0F ∧
    (0xAFFFFFFF#32).toNat / 2 ^ 26 = 0x2B ∧
    (0x04000000#32).toNat / 2 ^ 26 ∉ [0x00, 0x02, 0x09, 0x0D, 0x0F, 0x2B] := by decide

theorem witness_EveryOtherWord : illegalState.status = .running ∧ illegalState.slot = .full 0xFFFFFFFF#32 ∧
    decodeWord 0xFFFFFFFF#32 = .illegal 0xFFFFFFFF#32 ∧ fetch illegalState = .ok 0#32 := by decide

/-- A word of each arithmetic row and of J, and well-formed operands with register 0 as destination and without. -/
theorem witness_TableRows : 0x03FFFFC0#32 &&& 0xFC00003F#32 = 0x00000000#32 ∧
    0x3FFFFFFF#32 &&& 0xFC000000#32 = 0x3C000000#32 ∧ 0x37FFFFFF#32 &&& 0xFC000000#32 = 0x34000000#32 ∧
    0x27FFFFFF#32 &&& 0xFC000000#32 = 0x24000000#32 ∧ 0x0BFFFFFF#32 &&& 0xFC000000#32 = 0x08000000#32 ∧
    (Instr.sll 0 31 31).wf = true ∧ (Instr.sll 31 0 0).wf = true ∧ (Instr.lui 0 0#16).wf = true ∧
    (Instr.lui 31 0#16).wf = true ∧ (Instr.ori 31 0 0#16).wf = true ∧ (Instr.ori 0 31 0#16).wf = true ∧
    (Instr.addiu 31 0 0#16).wf = true ∧ (Instr.addiu 0 31 0#16).wf = true := by decide

theorem witness_RegistersAreWritten : (31 ≠ 0 ∧ 31 < 32) ∧ ∃ t, exec (.lui 31 1#16) State.reset = .next t :=
  ⟨by decide, _, rfl⟩

/-- A register neither read nor written, and a destination that is not read. -/
theorem witness_UnreadRegisters : 3 ∉ (Instr.sll 9 8 4).reads ∧ 3 ∉ (Instr.sll 9 8 4).writes ∧
    9 ∉ (Instr.sll 9 8 4).reads ∧ 9 ∈ (Instr.sll 9 8 4).writes := by decide

theorem witness_MisalignedAccess : (0x102#32).toNat % 4 ≠ 0 ∧
    (withRegs [(1, 0x100#32)]).effectiveAddress 1 2#16 = 0x102#32 ∧
    (launch [] 6#32 (.full 0#32) []).status = .running ∧ (launch [] 6#32 (.full 0#32) []).pc = 6#32 ∧
    (6#32).toNat % 4 ≠ 0 := by decide

theorem witness_WordsAreLittleEndian : Memory.wf [(4, 1#8)] = true ∧ 3 < 4 ∧ (3 < 4 ∨ 4 + 4 ≤ 3) ∧
    (8 < 4 ∨ 4 + 4 ≤ 8) := by decide

/-- The last word of main RAM in segment 0b101, and another view of it. -/
theorem witness_StoreIsSeen : State.reset.mem.wf = true ∧ (0xA01FFFFC#32).toNat % 4 = 0 ∧
    BackedSegment 0xA01FFFFC#32 ∧ (0xA01FFFFC#32).toNat % 2 ^ 29 < 0x200000 ∧ BackedSegment 0x801FFFFC#32 ∧
    (0x801FFFFC#32).toNat % 2 ^ 29 = (0xA01FFFFC#32).toNat % 2 ^ 29 ∧
    (0x801FFFF8#32).toNat % 2 ^ 29 ≠ (0xA01FFFFC#32).toNat % 2 ^ 29 := by decide

theorem witness_StoresAreIdempotent : State.reset.mem.wf = true ∧
    memWrite State.reset 0x100#32 0xDEADBEEF#32 =
      .ok (State.reset.setMem [(0x100, 0xEF#8), (0x101, 0xBE#8), (0x102, 0xAD#8), (0x103, 0xDE#8)]) := by decide

/-- The last word of the boot ROM and of main RAM, loaded; the last word of main RAM, of the scratchpad and of the
hardware-register window, stored to. -/
theorem witness_AccessesStayInside : memRead State.reset 0xBFC7FFFC#32 = .ok 0#32 ∧
    memRead State.reset 0x801FFFFC#32 = .ok 0#32 ∧
    memWrite State.reset 0x001FFFFC#32 0x80#32 = .ok (State.reset.setMem [(0x1FFFFC, 0x80#8)]) ∧
    memWrite State.reset 0x1F8003FC#32 0x80#32 = .ok (State.reset.setMem [(0x1F8003FC, 0x80#8)]) ∧
    memWrite State.reset 0x9F802FFC#32 0x80#32 = .ok State.reset := by decide

/-- The last word of main RAM and of the scratchpad. -/
theorem witness_SwStores : State.reset.mem.wf = true ∧
    locate ((withRegs [(2, 0x80200000#32)]).effectiveAddress 2 0xFFFC#16) = some (.ram, 0x1FFFFC) ∧
    ((withRegs [(2, 0x80200000#32)]).effectiveAddress 2 0xFFFC#16).toNat % 4 = 0 ∧
    locate ((withRegs [(2, 0x1F800400#32)]).effectiveAddress 2 0xFFFC#16) = some (.scratch, 0x3FC) ∧
    ((withRegs [(2, 0x1F800400#32)]).effectiveAddress 2 0xFFFC#16).toNat % 4 = 0 := by decide

/-- The first and the last discarded offset, and a step. -/
theorem witness_HardwareWindow :
    (((withRegs [(1, 0x1F801008#32)]).effectiveAddress 1 0#16).toNat % 4 = 0 ∧
      BackedSegment ((withRegs [(1, 0x1F801008#32)]).effectiveAddress 1 0#16) ∧
      ((withRegs [(1, 0x1F801008#32)]).effectiveAddress 1 0#16).toNat % 2 ^ 29 = 0x1F801000 + 8) ∧
    (((withRegs [(1, 0xBF802FFC#32)]).effectiveAddress 1 0#16).toNat % 4 = 0 ∧
      BackedSegment ((withRegs [(1, 0xBF802FFC#32)]).effectiveAddress 1 0#16) ∧
      ((withRegs [(1, 0xBF802FFC#32)]).effectiveAddress 1 0#16).toNat % 2 ^ 29 = 0x1F801000 + 0x1FFC) ∧
    (nextOf (step nopState)).isSome = true := by decide

theorem witness_ExpansionBase :
    (BackedSegment ((withRegs [(1, 0x1F801000#32)]).effectiveAddress 1 0#16) ∧
      ((withRegs [(1, 0x1F801000#32)]).effectiveAddress 1 0#16).toNat % 2 ^ 29 = 0x1F801000 + 0) ∧
    (BackedSegment ((withRegs [(1, 0x9F801000#32)]).effectiveAddress 1 4#16) ∧
      ((withRegs [(1, 0x9F801000#32)]).effectiveAddress 1 4#16).toNat % 2 ^ 29 = 0x1F801000 + 4) ∧
    BackedSegment 0xBF801004#32 ∧ (0xBF801004#32).toNat % 2 ^ 29 = 0x1F801000 + 4 := by decide

/-- An address for each of the four ways to have no backing for a store: a segment, and three holes or the ROM. -/
theorem witness_SwToUnmapped : (0x20000000#32).toNat % 4 = 0 ∧ ¬ BackedSegment 0x20000000#32 ∧
    0x00200000 ≤ (0x80200000#32).toNat % 2 ^ 29 ∧ (0x9F7FFFFC#32).toNat % 2 ^ 29 < 0x1F800000 ∧
    0x1F800400 ≤ (0x1F800400#32).toNat % 2 ^ 29 ∧ (0x1F800FFC#32).toNat % 2 ^ 29 < 0x1F801000 ∧
    0x1F803000 ≤ (0x1F803000#32).toNat % 2 ^ 29 ∧ 0x1F803000 ≤ (0xBFC00000#32).toNat % 2 ^ 29 ∧
    (withRegs [(1, 0xBFC00000#32)]).effectiveAddress 1 0#16 = 0xBFC00000#32 := by decide

/-- A target that can be fetched, and one that cannot. -/
theorem witness_DelaySlot : delayState.status = .running ∧ delayState.slot = .full 0x08000404#32 ∧
    decodeWord 0x08000404#32 = .instr (.j 0x0000404#26) ∧ fetch delayState = .ok 0x34050007#32 ∧
    memRead delayState (jumpTarget (delayState.pc + 4#32) 0x0000404#26) = .ok 0#32 ∧
    decodeWord 0x34050007#32 = .instr (.ori 0 5 7#16) ∧
    memRead delayState (jumpTarget (delayState.pc + 4#32) 0x3000000#26) =
      .error (.bus .unmapped 0x0C000000#32 .fetch) := by decide

/-- A J in the delay slot of a J. -/
def twoJumps : State := launch [] 0x1004#32 (.full 0x08000404#32) [(0x1004, 0x08000408#32), (0x1010, 0x34050007#32)]

theorem witness_JumpInDelaySlot : twoJumps.status = .running ∧ twoJumps.slot = .full 0x08000404#32 ∧
    decodeWord 0x08000404#32 = .instr (.j 0x0000404#26) ∧ fetch twoJumps = .ok 0x08000408#32 ∧
    decodeWord 0x08000408#32 = .instr (.j 0x0000408#26) ∧
    memRead twoJumps (jumpTarget (twoJumps.pc + 4#32) 0x0000404#26) = .ok 0x34050007#32 ∧
    memRead twoJumps 0x1020#32 = .ok 0#32 ∧ decodeWord 0x34050007#32 = .instr (.ori 0 5 7#16) := by decide

theorem witness_AssembledJump : (0xBFFFFFFC#32).toNat % 4 = 0 ∧
    (0xBFFFFFFC#32).toNat / 2 ^ 28 = State.reset.pc.toNat / 2 ^ 28 := by decide

theorem witness_StepRunsTheDecodedInstruction : nopState.status = .running ∧ nopState.slot = .full 0#32 ∧
    decodeWord 0#32 = .instr (.sll 0 0 0) ∧ fetch nopState = .ok 0#32 := by decide

/-- The bytes of ORI $5, $0, 7 at the program counter, while a J retires. -/
theorem witness_BytesAtPc : delayState.status = .running ∧ delayState.pc.toNat % 4 = 0 ∧
    locate delayState.pc = some (.ram, 0x1004) ∧
    decodeBytes [delayState.regionByte .ram 0x1004, delayState.regionByte .ram (0x1004 + 1),
      delayState.regionByte .ram (0x1004 + 2), delayState.regionByte .ram (0x1004 + 3)] =
      .instr (.ori 0 5 7#16) [] ∧
    nextOf (step delayState) = some delayState2 ∧ delayState2.status = .running ∧ fetch delayState2 = .ok 0#32 := by
  decide

/-- A program counter for each clause, at the edges of the fetchable ranges. -/
theorem witness_FetchFills : nopState.status = .running ∧ (6#32).toNat % 4 ≠ 0 ∧
    ([0x00200000#32, 0x1FBFFFFC#32, 0x1FC80000#32, 0xC0000000#32].all fun a =>
      decide (a.toNat % 4 = 0 ∧ ¬ (BackedSegment a ∧ (a.toNat % 2 ^ 29 < 0x200000 ∨
        (0x1FC00000 ≤ a.toNat % 2 ^ 29 ∧ a.toNat % 2 ^ 29 < 0x1FC80000))))) = true ∧
    ([0x00000000#32, 0x801FFFFC#32, 0x1FC00000#32, 0xBFC7FFFC#32].all fun a =>
      decide (a.toNat % 4 = 0 ∧ BackedSegment a ∧ (a.toNat % 2 ^ 29 < 0x200000 ∨
        (0x1FC00000 ≤ a.toNat % 2 ^ 29 ∧ a.toNat % 2 ^ 29 < 0x1FC80000)))) = true := by decide

/-- A retiring J, and a retiring no-op. -/
theorem witness_PcAdvances : delayState.status = .running ∧ fetch delayState = .ok 0x34050007#32 ∧
    delayState.slot = .full 0x08000404#32 ∧ decodeWord 0x08000404#32 = .instr (.j 0x0000404#26) ∧
    nopState.status = .running ∧ fetch nopState = .ok 0#32 ∧
    ∀ (r : Word) (target : BitVec 26), nopState.slot = .full r → decodeWord r ≠ .instr (.j target) := by
  refine ⟨by decide, by decide, by decide, by decide, by decide, by decide, ?_⟩
  intro r target h
  have hr : r = 0#32 := by
    have h' : Slot.full 0#32 = Slot.full r := h
    injection h' with h'
    exact h'.symm
  subst hr
  rw [show decodeWord 0#32 = .instr (.sll 0 0 0) by decide]
  simp

/-- An image of the exact length is taken at reset, under every policy. -/
theorem witness_SupplyRom (policy : GprResetPolicy) : (List.replicate 524288 0#8).length = 524288 ∧
    ∃ s, (State.resetUnder policy).supplyRom (List.replicate 524288 0#8) = some s := by
  refine ⟨List.length_replicate .., _, if_pos ⟨List.length_replicate .., rfl⟩⟩

theorem witness_FullSlotStaysFull : nopState.slot ≠ .empty ∧ (nextOf (step nopState)).isSome = true := by decide

/-- Another length, and a state past its first cycle. -/
theorem witness_RomSupplyTurnedAway : ([] : List Byte).length ≠ 524288 ∧ nopState.slot ≠ .empty := by decide

theorem witness_EmptySlot : State.reset.status = .running ∧ fetch State.reset = .ok 0#32 := by decide

/-- A store to the word just fetched, and one to the word after it. -/
theorem witness_StoreIsTooLate : ([0x100C#32, 0xA000100C#32].all fun base =>
      decide ((storeState base).status = .running ∧ (storeState base).mem.wf = true ∧
        (storeState base).slot = .full 0xAC410000#32 ∧ fetch (storeState base) = .ok 0x34020011#32 ∧
        (nextOf (step (storeState base))).map (·.status) = some .running ∧
        locate ((storeState base).effectiveAddress 2 0#16) = locate (storeState base).pc)) = true ∧
    decodeWord 0xAC410000#32 = .instr (.sw 2 1 0#16) ∧
    locate ((storeState 0x1010#32).effectiveAddress 2 0#16) = locate ((storeState 0x1010#32).pc + 4#32) ∧
    (nextOf (step (storeState 0x1010#32))).map (·.status) = some .running := by decide

theorem witness_RunningOff : (launch [] 0xBFC80000#32 (.full 0#32) []).status = .running ∧
    (launch [] 0xBFC80000#32 (.full 0#32) []).pc.toNat ∈
      [0x00200000, 0x80200000, 0xA0200000, 0x1FC80000, 0x9FC80000, 0xBFC80000] := by decide

/-- A fetch fault over an illegal word, an illegal word, and an SW that faults. -/
theorem witness_Faults :
    ((launch [] 6#32 (.full 0xFFFFFFFF#32) []).status = .running ∧
      (launch [] 6#32 (.full 0xFFFFFFFF#32) []).slot = .full 0xFFFFFFFF#32 ∧
      fetch (launch [] 6#32 (.full 0xFFFFFFFF#32) []) = .error (.bus .unaligned 6#32 .fetch)) ∧
    (illegalState.status = .running ∧ fetch illegalState = .ok 0#32 ∧ illegalState.slot = .full 0xFFFFFFFF#32 ∧
      decodeWord 0xFFFFFFFF#32 = .illegal 0xFFFFFFFF#32) ∧
    ((storeState 0x1F801000#32).status = .running ∧ fetch (storeState 0x1F801000#32) = .ok 0x34020011#32 ∧
      (storeState 0x1F801000#32).slot = .full 0xAC410000#32 ∧
      decodeWord 0xAC410000#32 = .instr (.sw 2 1 0#16) ∧
      memWrite (storeState 0x1F801000#32) ((storeState 0x1F801000#32).effectiveAddress 2 0#16)
        ((storeState 0x1F801000#32).readReg 1) = .error (.expansionMapOverwrite 0 0x1F801000#32 0x34020077#32)) ∧
    (0x1F801001#32).toNat = 0x1F801001 := by decide

/-- A faulted state, and a running one whose step faults. -/
theorem witness_FaultedState :
    (State.reset.setStatus (.faulted (.illegalInstruction 1#32))).status = .faulted (.illegalInstruction 1#32) ∧
    illegalState.status = .running ∧
    (nextOf (step illegalState)).map (·.status) = some (.faulted (.illegalInstruction 0xFFFFFFFF#32)) ∧
    statusAfter (.sw 1 0 2#16) (withRegs [(1, 0x100#32)]) ≠ some (withRegs [(1, 0x100#32)]).status := by decide

/-- The reset state meets the invariant, is running, is in the boot block, and takes a step. -/
theorem witness_Invariant : State.reset.Inv ∧ State.reset.status = .running ∧ State.reset.inBootBlock ∧
    (∃ t, step State.reset = .next t) ∧ Host.Core.run core 0 State.reset = .next State.reset :=
  ⟨⟨rfl, rfl, rfl, by decide, trivial⟩, rfl, by decide, ⟨_, rfl⟩, rfl⟩

/-- A state with every kind of listed byte that a store can put there, as a run reaches it, meets the invariant. -/
theorem witness_InvariantWithMemory : (launch [] 0x1004#32 (.full 0x08000404#32)
    [(0x1004, 0x08000408#32), (0x1F800010, 0x34050007#32), (0x1FC00000, 0x01020304#32)]).Inv :=
  ⟨by decide, by decide, by decide, by decide, trivial⟩

theorem witness_BootFetch : fetch State.reset = .ok 0#32 := by decide

/-- Immediates of the four kinds of `li`, at the edges of their ranges. -/
theorem witness_Pseudo : (31 ≠ 0 ∧ 31 < 32) ∧ ([0, 0xFFFF, -1, -32768, 0x10000, 0x10001, 0xFFFFFFFF, -2147483648].all
    fun imm : Int => decide (-2 ^ 31 ≤ imm ∧ imm < 2 ^ 32)) = true := by decide

end Sys2Proof.Tests
end

/-! SUPPORT. The state family (spec 10_state.md): the register file, the lookahead slot, the invariant of every step,
and the parts of the state that no run changes. -/

namespace Sys2Proof.Machine

/-! ### Rules of the register write -/

/-- No write reaches cell 0 of the register file. -/
@[simp] theorem writeReg_regs_zero (s : State) (i : Nat) (v : Word) : (s.writeReg i v).regs[0] = s.regs[0] := by
  unfold State.writeReg
  split
  · rfl
  · next h => simp [h]

/-- The second of two writes to one register wins. -/
theorem writeReg_writeReg_same (s : State) (i : Nat) (u v : Word) :
    (s.writeReg i u).writeReg i v = s.writeReg i v := by
  unfold State.writeReg
  split
  · rfl
  · simp only [State.setRegs]
    congr 1
    apply Vector.ext
    intro k hk
    simp only [Vector.getElem_setIfInBounds]
    split <;> rfl

theorem setPc_writeReg (s : State) (i : Nat) (v p : Word) :
    (s.writeReg i v).setPc p = (s.setPc p).writeReg i v := by
  unfold State.writeReg; split <;> rfl

theorem setStatus_writeReg (s : State) (i : Nat) (v : Word) (x : RunStatus) :
    (s.writeReg i v).setStatus x = (s.setStatus x).writeReg i v := by
  unfold State.writeReg; split <;> rfl

theorem writeRegionWord_writeReg (s : State) (i : Nat) (u : Word) (r : Region) (o : Nat) (v : Word) :
    (s.writeReg i u).writeRegionWord r o v = (s.writeRegionWord r o v).writeReg i u := by
  unfold State.writeReg; split <;> rfl

/-- A store that succeeds commutes with a register write. -/
theorem memWrite_writeReg_ok {s t : State} {a v : Word} (h : memWrite s a v = .ok t) (i : Nat) (u : Word) :
    memWrite (s.writeReg i u) a v = .ok (t.writeReg i u) := by
  rcases memWrite_cases s a v with ⟨ha, q, o, hq, hl, e⟩ | ⟨ha, o, hl, h0, h4, e⟩ | ⟨-, o, -, -, e⟩ | ⟨-, -, e⟩ |
    ⟨-, e⟩ <;> rw [e] at h <;> cases h
  · rcases hq with rfl | rfl <;> simp [memWrite, ha, hl, writeRegionWord_writeReg]
  · simp [memWrite, ha, hl, isExpansionBase, h0, h4]

/-! ### What a handler does, as a function of the registers it reads -/

/-- SLL, LUI, ORI and ADDIU write a function of the registers they read to their one destination; the other two
instructions are SW and J (R18). -/
theorem exec_destination_or_store_or_jump (i : Instr) :
    (∃ (d : Nat) (f : State → Word), i.writes = [d] ∧ (∀ s, exec i s = .next (s.writeReg d (f s))) ∧
      ∀ s t : State, (∀ r ∈ i.reads, t.readReg r = s.readReg r) → f t = f s) ∨
    (∃ rs rt imm, i = .sw rs rt imm) ∨ (∃ target, i = .j target) := by
  cases i with
  | sll rd rt shamt =>
    refine .inl ⟨rd, fun s => s.readReg rt <<< shamt, rfl, fun _ => rfl, fun s t h => ?_⟩
    simp only [h rt (List.mem_singleton.mpr rfl)]
  | lui rt imm => exact .inl ⟨rt, fun _ => upperImmediate imm, rfl, fun _ => rfl, fun _ _ _ => rfl⟩
  | ori rs rt imm =>
    refine .inl ⟨rt, fun s => s.readReg rs ||| zext16 imm, rfl, fun _ => rfl, fun s t h => ?_⟩
    simp only [h rs (List.mem_singleton.mpr rfl)]
  | addiu rs rt imm =>
    refine .inl ⟨rt, fun s => s.readReg rs + sext16 imm, rfl, fun _ => rfl, fun s t h => ?_⟩
    simp only [h rs (List.mem_singleton.mpr rfl)]
  | sw rs rt imm => exact .inr (.inl ⟨rs, rt, imm, rfl⟩)
  | j target => exact .inr (.inr ⟨target, rfl⟩)

/-- SW is indifferent to a register that is neither its base nor its source. -/
theorem execSw_writeReg {rs rt : Nat} {imm : BitVec 16} (s : State) {r : Nat} (v : Word) (hs : r ≠ rs) (ht : r ≠ rt) :
    ∃ t, execSw rs rt imm s = .next t ∧ execSw rs rt imm (s.writeReg r v) = .next (t.writeReg r v) := by
  have ha : (s.writeReg r v).effectiveAddress rs imm = s.effectiveAddress rs imm := by
    simp only [State.effectiveAddress, readReg_writeReg_other s v hs.symm]
  have hv : (s.writeReg r v).readReg rt = s.readReg rt := readReg_writeReg_other s v ht.symm
  cases h : memWrite s (s.effectiveAddress rs imm) (s.readReg rt) with
  | ok t =>
    refine ⟨t, execSw_ok h, execSw_ok ?_⟩
    rw [ha, hv]
    exact memWrite_writeReg_ok h r v
  | error f =>
    refine ⟨_, execSw_error h, ?_⟩
    rw [← setStatus_writeReg]
    refine execSw_error ?_
    rw [ha, hv]
    exact memWrite_error_any _ h

/-- No handler touches the lookahead slot. -/
theorem exec_slot {i : Instr} {s t : State} (h : exec i s = .next t) : t.slot = s.slot := by
  rcases exec_cases i s with ⟨d, v, -, e⟩ | ⟨rs, rt, imm, u, -, hw, e⟩ | ⟨rs, rt, imm, f, -, -, e⟩ | ⟨target, -, e⟩ <;>
    rw [e] at h <;> cases h
  · exact writeReg_slot s d v
  · obtain ⟨-, -, -, -, hslot, -⟩ := memWrite_frame hw
    exact hslot
  · rfl
  · rfl

/-! ### The step, by the content of the slot -/

/-- With an empty slot a cycle that fetches executes nothing (R83). -/
theorem step_of_empty {s : State} {w : Word} (hs : s.status = .running) (hslot : s.slot = .empty)
    (hf : fetch s = .ok w) : step s = .next (prefetched s w) := by
  simp only [step, hs, cycle, hf, hslot, retireSlot]

/-- With an instruction in the slot a cycle that fetches runs its handler (R75, R79). -/
theorem step_of_instr {s : State} {r w : Word} {i : Instr} (hs : s.status = .running) (hslot : s.slot = .full r)
    (hd : decodeWord r = .instr i) (hf : fetch s = .ok w) : step s = exec i (prefetched s w) := by
  simp only [step, hs, cycle, hf, hslot, retireSlot, retire, hd]

/-- A step into a running state fetched, and left the fetched word in the slot (R24). -/
theorem slot_of_step_running {s t : State} (h : step s = .next t) (ht : t.status = .running) :
    ∃ w, fetch s = .ok w ∧ t.slot = .full w := by
  rcases step_cases s with ⟨f, -, e⟩ | ⟨-, f, -, e⟩ | ⟨-, w, hf, -, e⟩ | ⟨-, w, r, -, -, -, e⟩ |
    ⟨-, w, r, i, hf, -, -, e⟩ <;> rw [e] at h
  · cases h
  · cases h; cases ht
  · cases h; exact ⟨w, hf, rfl⟩
  · cases h; cases ht
  · exact ⟨w, hf, exec_slot h⟩

/-- The four bytes at an offset decode as the word there does (R57). -/
theorem decodeWord_of_decodeBytes_cons {b0 b1 b2 b3 : Byte} {tail rest : List Byte} {i : Instr}
    (h : decodeBytes (b0 :: b1 :: b2 :: b3 :: tail) = .instr i rest) :
    decodeWord (wordOfBytes b0 b1 b2 b3) = .instr i := by
  unfold decodeBytes at h
  cases hd : decodeWord (wordOfBytes b0 b1 b2 b3) with
  | instr j => simp only [hd] at h; cases h; rfl
  | illegal w => simp only [hd] at h; cases h

/-- An aligned fetch from main RAM or the boot ROM answers the word at its offset (R76). -/
theorem fetch_of_locate {s : State} {r : Region} {o : Nat} (ha : aligned s.pc = true) (hr : r = .ram ∨ r = .rom)
    (hl : locate s.pc = some (r, o)) : fetch s = .ok (s.regionWord r o) := by
  rcases hr with rfl | rfl <;> simp [fetch, memRead, ha, hl]

/-! ### The invariant, operation by operation -/

theorem aligned_add_four {a : Word} (h : aligned a = true) : aligned (a + 4#32) = true := by
  rw [aligned_iff] at *
  rw [BitVec.toNat_add, BitVec.toNat_ofNat]
  omega

/-- Every jump target is a multiple of 4 (R63). -/
theorem aligned_jumpTarget (pc : Word) (target : BitVec 26) : aligned (jumpTarget pc target) = true := by
  rw [aligned_iff, toNat_jumpTarget]
  omega

namespace State.Inv

theorem setStatus {s : State} (h : s.Inv) {x : RunStatus} (hx : x.genuine) : (s.setStatus x).Inv :=
  { h with statusGenuine := hx }

theorem setPc {s : State} (h : s.Inv) {p : Word} (hp : aligned p = true) : (s.setPc p).Inv :=
  { h with pcAligned := hp }

theorem setMem {s : State} (h : s.Inv) {m : Memory} (hw : m.wf = true) (hb : m.backed = true) : (s.setMem m).Inv :=
  { h with memWf := hw, memBacked := hb }

theorem prefetched {s : State} (h : s.Inv) (w : Word) : (Machine.prefetched s w).Inv :=
  { h with pcAligned := aligned_add_four h.pcAligned }

theorem writeReg {s : State} (h : s.Inv) (i : Nat) (v : Word) : (s.writeReg i v).Inv where
  memWf := by rw [writeReg_mem]; exact h.memWf
  memBacked := by rw [writeReg_mem]; exact h.memBacked
  zeroCell := by rw [writeReg_regs_zero]; exact h.zeroCell
  pcAligned := by rw [writeReg_pc]; exact h.pcAligned
  statusGenuine := by rw [writeReg_status]; exact h.statusGenuine

/-- A store that succeeds writes main RAM or the scratchpad, or nothing (R42, R43). -/
theorem memWrite {s t : State} (h : s.Inv) {a v : Word} (e : Machine.memWrite s a v = .ok t) : t.Inv := by
  rcases memWrite_cases s a v with ⟨ha, r, o, hr, hl, e'⟩ | ⟨-, o, -, -, -, e'⟩ | ⟨-, o, -, -, e'⟩ | ⟨-, -, e'⟩ |
    ⟨-, e'⟩ <;> rw [e'] at e <;> cases e
  · have ho : o + 4 ≤ r.size := (locate_aligned hl ha).2
    exact h.setMem (wf_writeWord _ v h.memWf) (backed_writeWord v hr ho h.memBacked)
  · exact h

theorem exec {s t : State} (h : s.Inv) {i : Instr} (e : Machine.exec i s = .next t) : t.Inv := by
  rcases exec_cases i s with ⟨d, v, -, e'⟩ | ⟨rs, rt, imm, u, -, hw, e'⟩ | ⟨rs, rt, imm, f, -, hw, e'⟩ |
    ⟨target, -, e'⟩ <;> rw [e'] at e <;> cases e
  · exact h.writeReg d v
  · exact h.memWrite hw
  · exact h.setStatus (memWrite_error hw)
  · exact h.setPc (aligned_jumpTarget s.pc target)

theorem step {s t : State} (h : s.Inv) (e : Machine.step s = .next t) : t.Inv := by
  rcases step_cases s with ⟨f, -, e'⟩ | ⟨-, f, hf, e'⟩ | ⟨-, w, -, -, e'⟩ | ⟨-, w, r, -, -, hd, e'⟩ |
    ⟨-, w, r, i, -, -, -, e'⟩ <;> rw [e'] at e
  · cases e
  · cases e; exact h.setStatus (memRead_error hf)
  · cases e; exact h.prefetched w
  · cases e; exact (h.prefetched w).setStatus hd
  · exact (h.prefetched w).exec e

end State.Inv

/-- Settles O44: each operation a step is made of keeps the invariant. -/
theorem everyStepKeepsTheInvariant : Obligations.EveryStepKeepsTheInvariant :=
  fun _ _ h e => h.step e

/-! ### No unaligned fetch in a run -/

/-- The status does not report a fetch from an unaligned address. -/
def State.NoUnalignedFetch (s : State) : Prop := ∀ a : Word, s.status ≠ .faulted (.bus .unaligned a .fetch)

/-- A fault of the bus `store` is not one of a fetch (R42). -/
theorem memWrite_error_ne_fetch {s : State} {a v b : Word} {kind : BusFaultKind} :
    memWrite s a v ≠ .error (.bus kind b .fetch) := by
  intro h
  rcases memWrite_cases s a v with ⟨-, r, o, -, -, e⟩ | ⟨-, o, -, -, -, e⟩ | ⟨-, o, -, -, e⟩ | ⟨-, -, e⟩ | ⟨-, e⟩ <;>
    rw [e] at h <;> cases h

/-- No handler reports an unaligned fetch. -/
theorem exec_noUnalignedFetch {i : Instr} {s t : State} (hs : s.NoUnalignedFetch) (h : exec i s = .next t) :
    t.NoUnalignedFetch := by
  intro a
  rcases exec_cases i s with ⟨d, v, -, e⟩ | ⟨rs, rt, imm, u, -, hw, e⟩ | ⟨rs, rt, imm, f, -, hw, e⟩ | ⟨target, -, e⟩ <;>
    rw [e] at h <;> cases h
  · rw [writeReg_status]; exact hs a
  · obtain ⟨-, -, -, -, -, hstatus⟩ := memWrite_frame hw
    rw [hstatus]; exact hs a
  · intro hf
    cases hf
    exact memWrite_error_ne_fetch hw
  · exact hs a

/-- From a program counter that is a multiple of 4, no step reports an unaligned fetch (R23). -/
theorem step_noUnalignedFetch {s t : State} (hp : aligned s.pc = true) (hs : s.NoUnalignedFetch)
    (h : step s = .next t) : t.NoUnalignedFetch := by
  intro a
  rcases step_cases s with ⟨f, -, e⟩ | ⟨-, f, hf, e⟩ | ⟨-, w, -, -, e⟩ | ⟨-, w, r, -, -, -, e⟩ |
    ⟨-, w, r, i, -, -, -, e⟩ <;> rw [e] at h
  · cases h
  · cases h
    intro hst
    cases hst
    rcases memRead_cases s s.pc with ⟨-, o, -, e⟩ | ⟨-, o, -, e⟩ | ⟨-, -, -, e⟩ | ⟨hna, -⟩
    · cases e.symm.trans hf
    · cases e.symm.trans hf
    · cases e.symm.trans hf
    · rw [hp] at hna; cases hna
  · cases h; exact hs a
  · cases h; simp
  · exact exec_noUnalignedFetch (s := prefetched s w) hs h a

/-- Settles O46: the invariant together with a status free of unaligned fetches is kept by every step, so by every
run. The invariant alone does not suffice: it lets a status report any unaligned address. -/
theorem fetchIsNeverUnalignedInARun : Obligations.FetchIsNeverUnalignedInARun := by
  intro k s t a hinv hrun h
  have hs : s.NoUnalignedFetch := fun a => by simp [hrun]
  obtain ⟨ht, hst⟩ := run_induction (P := fun u => u.Inv ∧ u.NoUnalignedFetch)
    (fun u v ⟨hu, hsafe⟩ e => ⟨hu.step e, step_noUnalignedFetch hu.pcAligned hsafe e⟩) ⟨hinv, hs⟩ h
  exact ⟨ht.pcAligned, hst a⟩

/-! ### What no run changes -/

/-- `hi`, `lo` and every byte outside main RAM and the scratchpad are the same in the two states. -/
structure SameFixedParts (s t : State) : Prop where
  hi : t.hi = s.hi
  lo : t.lo = s.lo
  bytes : ∀ b : Nat, Region.ram.contains b = false → Region.scratch.contains b = false →
    t.mem.read b = s.mem.read b

namespace SameFixedParts

/-- States with the same `hi`, `lo` and storage. -/
theorem of_mem {s t : State} (hhi : t.hi = s.hi) (hlo : t.lo = s.lo) (hm : t.mem = s.mem) : SameFixedParts s t :=
  ⟨hhi, hlo, fun b _ _ => by rw [hm]⟩

theorem trans {s t u : State} (h1 : SameFixedParts s t) (h2 : SameFixedParts t u) : SameFixedParts s u :=
  ⟨h2.hi.trans h1.hi, h2.lo.trans h1.lo, fun b hr hs => (h2.bytes b hr hs).trans (h1.bytes b hr hs)⟩

theorem exec {i : Instr} {s t : State} (h : Machine.exec i s = .next t) : SameFixedParts s t := by
  rcases exec_cases i s with ⟨d, v, -, e⟩ | ⟨rs, rt, imm, u, -, hw, e⟩ | ⟨rs, rt, imm, f, -, -, e⟩ | ⟨target, -, e⟩ <;>
    rw [e] at h <;> cases h
  · exact of_mem (writeReg_hi s d v) (writeReg_lo s d v) (writeReg_mem s d v)
  · obtain ⟨-, hhi, hlo, -⟩ := memWrite_frame hw
    exact ⟨hhi, hlo, fun b hr hs => memWrite_read_other hw hr hs⟩
  · exact of_mem rfl rfl rfl
  · exact of_mem rfl rfl rfl

theorem step {s t : State} (h : Machine.step s = .next t) : SameFixedParts s t := by
  rcases step_cases s with ⟨f, -, e⟩ | ⟨-, f, -, e⟩ | ⟨-, w, -, -, e⟩ | ⟨-, w, r, -, -, -, e⟩ |
    ⟨-, w, r, i, -, -, -, e⟩ <;> rw [e] at h
  · cases h
  · cases h; exact of_mem rfl rfl rfl
  · cases h; exact of_mem rfl rfl rfl
  · cases h; exact of_mem rfl rfl rfl
  · exact (of_mem rfl rfl rfl : SameFixedParts s (prefetched s w)).trans (exec h)

theorem run {k : Nat} {s t : State} (h : Host.Core.run core k s = .next t) : SameFixedParts s t :=
  run_induction (P := SameFixedParts s) (fun _ _ hu e => hu.trans (step e)) (of_mem rfl rfl rfl) h

/-- A region that is neither main RAM nor the scratchpad keeps its bytes. -/
theorem regionByte {s t : State} (h : SameFixedParts s t) {r : Region} (hram : r ≠ .ram) (hscratch : r ≠ .scratch)
    {o : Nat} (ho : o < r.size) : t.regionByte r o = s.regionByte r o := by
  refine h.bytes (r.base + o) ?_ ?_
  · rw [contains_base_add .ram r ho, decide_eq_false hram.symm]
  · rw [contains_base_add .scratch r ho, decide_eq_false hscratch.symm]

end SameFixedParts

/-- Settles O48: every step keeps `hi`, `lo` and the bytes outside main RAM and the scratchpad; the boot ROM and the
window lie outside both. -/
theorem runsLeaveHiLoRomAndWindowAlone : Obligations.RunsLeaveHiLoRomAndWindowAlone := by
  intro k s t h
  have hsame := SameFixedParts.run h
  exact ⟨hsame.hi, hsame.lo, fun o ho => hsame.regionByte (r := .rom) (by decide) (by decide) ho,
    fun o ho => hsame.regionByte (r := .hwreg) (by decide) (by decide) ho⟩

/-! ### Registers -/

/-- Settles O13: the write rules of the register file, and the case list of a handler. -/
theorem registersAreWrittenThroughOneChokepoint : Obligations.RegistersAreWrittenThroughOneChokepoint := by
  refine ⟨writeReg_zero, fun s i v h0 h => ⟨readReg_writeReg_same s v h0 h, fun j hj => readReg_writeReg_other s v hj⟩,
    fun s ws => readReg_zero _, fun i s t h => ?_⟩
  rcases exec_cases i s with ⟨d, v, hd, e⟩ | ⟨rs, rt, imm, u, -, hw, e⟩ | ⟨rs, rt, imm, f, -, -, e⟩ | ⟨target, -, e⟩ <;>
    rw [e] at h <;> cases h
  · exact .inr ⟨d, v, by simp [hd], rfl⟩
  · obtain ⟨hregs, -⟩ := memWrite_frame hw
    exact .inl hregs
  · exact .inl rfl
  · exact .inl rfl

/-- Settles O15: what a handler writes is a function of the registers it reads, and a write to another register
commutes with it. -/
theorem unreadRegistersHaveNoInfluence : Obligations.UnreadRegistersHaveNoInfluence := by
  intro i s r v hr
  rcases exec_destination_or_store_or_jump i with ⟨d, f, hd, he, hf⟩ | ⟨rs, rt, imm, rfl⟩ | ⟨target, rfl⟩
  · have hsame : f (s.writeReg r v) = f s :=
      hf s _ fun q hq => readReg_writeReg_other s v fun hqr => hr (hqr ▸ hq)
    refine ⟨_, he s, fun hw => ?_, fun hw => ?_⟩ <;> rw [he, hsame]
    · rw [writeReg_comm s v (f s) (by simpa [hd] using hw)]
    · obtain rfl : r = d := by simpa [hd] using hw
      rw [writeReg_writeReg_same]
  · obtain ⟨hs, ht⟩ : r ≠ rs ∧ r ≠ rt := by simpa [Instr.reads] using hr
    obtain ⟨t, e, e'⟩ := execSw_writeReg (imm := imm) s v hs ht
    exact ⟨t, e, fun _ => e', fun hw => by cases hw⟩
  · refine ⟨s.setPc (jumpTarget s.pc target), rfl, fun _ => ?_, fun hw => by cases hw⟩
    rw [← setPc_writeReg, ← writeReg_pc s r v]
    rfl

/-! ### The lookahead slot -/

/-- Settles O33: the bytes at the program counter are the word the first cycle puts in the slot, and the slot is what
the next cycle retires. -/
theorem bytesAtPcRunInTheNextCycle : Obligations.BytesAtPcRunInTheNextCycle := by
  intro s t r o i rest w _ hp hr hl hbytes hst ht hw
  obtain ⟨x, hf, hslot⟩ := slot_of_step_running hst ht
  rw [fetch_of_locate ((aligned_iff s.pc).mpr hp) hr hl] at hf
  cases hf
  exact step_of_instr ht hslot (decodeWord_of_decodeBytes_cons hbytes) hw

/-- Settles O37: the no-op decodes to an SLL of register 0, whose handler changes nothing. -/
theorem emptySlotActsAsASeededNop : Obligations.EmptySlotActsAsASeededNop := by
  intro s w hs hf
  have hempty : step (s.setSlot .empty) = .next ((s.setSlot (.full w)).setPc (s.pc + 4#32)) :=
    step_of_empty (s := s.setSlot .empty) hs rfl hf
  have hnop : step (s.setSlot (.full 0x00000000#32)) = .next ((s.setSlot (.full w)).setPc (s.pc + 4#32)) :=
    step_of_instr (i := .sll 0 0 0) (s := s.setSlot (.full 0x00000000#32)) hs rfl (by decide) hf
  exact ⟨hempty.trans hnop.symm, hempty⟩

/-! ### The invariant at reset -/

/-- The state at reset meets the invariant under every policy (R31). -/
theorem inv_resetUnder (policy : GprResetPolicy) : (State.resetUnder policy).Inv where
  memWf := rfl
  memBacked := rfl
  zeroCell := by simp [State.resetUnder]
  pcAligned := (by decide : aligned Config.resetVector = true)
  statusGenuine := trivial

/-- An image that fits the boot ROM keeps the storage in the backed regions (R119). -/
theorem backed_withRom {m : Memory} {image : List Byte} (hi : image.length ≤ Region.rom.size) (hm : m.backed = true) :
    (m.withRom image).backed = true := by
  rw [backed_iff] at *
  intro c hc
  rcases List.mem_append.mp hc with h | h
  · exact hm c (List.mem_filter.mp h).1
  · obtain ⟨h1, h2⟩ := lt_of_mem_ofBytes h
    exact .inr (.inr ((contains_iff _ _).mpr ⟨h1, by omega⟩))

/-- Supplying the boot ROM keeps the invariant. -/
theorem inv_supplyRom {s t : State} {image : List Byte} (hs : s.Inv) (h : s.supplyRom image = some t) : t.Inv := by
  unfold State.supplyRom at h
  split at h
  · next hc =>
    cases h
    exact hs.setMem (wf_withRom image hs.memWf) (backed_withRom (Nat.le_of_eq hc.1) hs.memBacked)
  · cases h

/-- Settles O45: the invariant holds of the reset record, and supplying an image keeps it. -/
theorem resetMeetsTheInvariant : Obligations.ResetMeetsTheInvariant :=
  ⟨inv_resetUnder .zero, fun policy => ⟨inv_resetUnder policy, fun _ _ h => inv_supplyRom (inv_resetUnder policy) h⟩⟩

end Sys2Proof.Machine

/-! SUPPORT. The memory family (spec 20_memory.md): the address map and the bus by number, byte order, and what a load
answers after a store. -/

namespace Sys2Proof.Machine

/-! ### The address map by number -/

/-- An address in a backed segment whose low 29 bits lie in a region is located there (R33, R35). -/
theorem locate_of_number {a : Word} {r : Region} (hb : BackedSegment a) (h1 : r.base ≤ a.toNat % 2 ^ 29)
    (h2 : a.toNat % 2 ^ 29 < r.base + r.size) : locate a = some (r, a.toNat % 2 ^ 29 - r.base) :=
  (locate_eq_some a r _).mpr ⟨hb, by omega, by omega⟩

/-- The region of an address, by its low 29 bits. -/
theorem regionOf_eq_some_iff_number (a : Word) (r : Region) :
    regionOf a = some r ↔
      BackedSegment a ∧ r.base ≤ a.toNat % 2 ^ 29 ∧ a.toNat % 2 ^ 29 < r.base + r.size := by
  rw [regionOf_eq_some]
  constructor
  · rintro ⟨o, h⟩
    obtain ⟨hb, hp, ho⟩ := (locate_eq_some a r o).mp h
    exact ⟨hb, by omega, by omega⟩
  · rintro ⟨hb, h1, h2⟩
    exact ⟨_, locate_of_number hb h1 h2⟩

/-- The three views of a region: its base plus the offset, in each of the three backed segments (R36). -/
theorem locate_eq_some_iff_views (a : Word) (r : Region) (o : Nat) :
    locate a = some (r, o) ↔ o < r.size ∧
      (a.toNat = r.base + o ∨ a.toNat = 0x80000000 + r.base + o ∨ a.toNat = 0xA0000000 + r.base + o) := by
  have hfit : r.base + r.size ≤ 2 ^ 29 := by cases r <;> decide
  rw [locate_eq_some]
  omega

/-- Two backed addresses that agree in their low 29 bits are views of one place (R33). -/
theorem locate_eq_of_number {a b : Word} {r : Region} {o : Nat} (ha : locate a = some (r, o)) (hb : BackedSegment b)
    (h : b.toNat % 2 ^ 29 = a.toNat % 2 ^ 29) : locate b = some (r, o) := by
  obtain ⟨-, hp, ho⟩ := (locate_eq_some a r o).mp ha
  exact (locate_eq_some b r o).mpr ⟨hb, h.trans hp, ho⟩

/-- Settles O16: the base of a region, plus the offset, in each of the three segments that mask to it. -/
theorem everyRegionHasThreeViews : Obligations.EveryRegionHasThreeViews := by
  intro a o
  refine ⟨?_, ?_, ?_, ?_⟩ <;> rw [locate_eq_some_iff_views] <;> simp only [Region.base, Region.size]

/-! ### The bus, branch by branch -/

/-- Alignment is tested first (R40, R41). -/
theorem memRead_unaligned (s : State) {a : Word} (h : a.toNat % 4 ≠ 0) :
    memRead s a = .error (.bus .unaligned a .fetch) := by
  simp [memRead, (not_aligned_iff a).mpr h]

/-- An aligned load from main RAM or the boot ROM answers the word at its offset (R41). -/
theorem memRead_word (s : State) {a : Word} {r : Region} {o : Nat} (ha : aligned a = true) (hr : r = .ram ∨ r = .rom)
    (hl : locate a = some (r, o)) : memRead s a = .ok (s.regionWord r o) := by
  rcases hr with rfl | rfl <;> simp [memRead, ha, hl]

/-- An aligned load from anywhere else has no backing (R37, R41). -/
theorem memRead_unmapped (s : State) {a : Word} (ha : aligned a = true) (hram : regionOf a ≠ some .ram)
    (hrom : regionOf a ≠ some .rom) : memRead s a = .error (.bus .unmapped a .fetch) := by
  rcases memRead_cases s a with ⟨-, o, hl, -⟩ | ⟨-, o, hl, -⟩ | ⟨-, -, -, e⟩ | ⟨hna, -⟩
  · exact absurd ((regionOf_eq_some a _).mpr ⟨o, hl⟩) hram
  · exact absurd ((regionOf_eq_some a _).mpr ⟨o, hl⟩) hrom
  · exact e
  · simp [ha] at hna

/-- A load that succeeds read the word at the region and offset of its address (R41). -/
theorem memRead_ok {s : State} {a w : Word} (h : memRead s a = .ok w) :
    aligned a = true ∧ ∃ r o, locate a = some (r, o) ∧ (r = .ram ∨ r = .rom) ∧ w = s.regionWord r o := by
  rcases memRead_cases s a with ⟨ha, o, hl, e⟩ | ⟨ha, o, hl, e⟩ | ⟨-, -, -, e⟩ | ⟨-, e⟩ <;> rw [e] at h <;> cases h
  · exact ⟨ha, .ram, o, hl, .inl rfl, rfl⟩
  · exact ⟨ha, .rom, o, hl, .inr rfl, rfl⟩

/-- Alignment is tested first (R40, R42). -/
theorem memWrite_unaligned (s : State) {a : Word} (v : Word) (h : a.toNat % 4 ≠ 0) :
    memWrite s a v = .error (.bus .unaligned a .store) := by
  simp [memWrite, (not_aligned_iff a).mpr h]

/-- An aligned store to main RAM or the scratchpad writes the word at its offset (R42). -/
theorem memWrite_word (s : State) {a : Word} (v : Word) {r : Region} {o : Nat} (ha : aligned a = true)
    (hr : r = .ram ∨ r = .scratch) (hl : locate a = some (r, o)) :
    memWrite s a v = .ok (s.writeRegionWord r o v) := by
  rcases hr with rfl | rfl <;> simp [memWrite, ha, hl]

/-- An aligned store to the window has no effect (R43). -/
theorem memWrite_window (s : State) {a : Word} (v : Word) {o : Nat} (ha : aligned a = true)
    (hl : locate a = some (.hwreg, o)) (h0 : o ≠ 0) (h4 : o ≠ 4) : memWrite s a v = .ok s := by
  simp [memWrite, ha, hl, isExpansionBase, h0, h4]

/-- The two expansion-base registers turn every store away (R44). -/
theorem memWrite_expansionBase (s : State) {a : Word} (v : Word) {o : Nat} (ha : aligned a = true)
    (hl : locate a = some (.hwreg, o)) (ho : o = 0 ∨ o = 4) :
    memWrite s a v = .error (.expansionMapOverwrite o a v) := by
  simp [memWrite, ha, hl, isExpansionBase, ho]

/-- An aligned store to the boot ROM or to no region has no backing (R37, R45). -/
theorem memWrite_unmapped (s : State) {a : Word} (v : Word) (ha : aligned a = true)
    (h : ∀ r, regionOf a = some r → r = .rom) : memWrite s a v = .error (.bus .unmapped a .store) := by
  rcases memWrite_cases s a v with ⟨-, r, o, hr, hl, -⟩ | ⟨-, o, hl, -⟩ | ⟨-, o, hl, -⟩ | ⟨-, -, e⟩ | ⟨hna, -⟩
  · obtain rfl := h r ((regionOf_eq_some a r).mpr ⟨o, hl⟩)
    simp at hr
  · cases h .hwreg ((regionOf_eq_some a _).mpr ⟨o, hl⟩)
  · cases h .hwreg ((regionOf_eq_some a _).mpr ⟨o, hl⟩)
  · exact e
  · simp [ha] at hna

/-- A store that succeeds wrote the word at the region and offset of its address, or went to the window and changed
nothing (R42, R43). -/
theorem memWrite_ok {s t : State} {a v : Word} (h : memWrite s a v = .ok t) :
    aligned a = true ∧ ∃ r o, locate a = some (r, o) ∧
      ((r = .hwreg ∧ t = s) ∨ ((r = .ram ∨ r = .scratch) ∧ t = s.writeRegionWord r o v)) := by
  rcases memWrite_cases s a v with ⟨ha, r, o, hr, hl, e⟩ | ⟨ha, o, hl, -, -, e⟩ | ⟨-, o, -, -, e⟩ | ⟨-, -, e⟩ |
    ⟨-, e⟩ <;> rw [e] at h <;> cases h
  · exact ⟨ha, r, o, hl, .inr ⟨hr, rfl⟩⟩
  · exact ⟨ha, .hwreg, o, hl, .inl ⟨rfl, rfl⟩⟩

/-- A load from main RAM or the boot ROM, by the low 29 bits of the address (R33, R41). -/
theorem memRead_number (s : State) {a : Word} {r : Region} (ha : aligned a = true) (hr : r = .ram ∨ r = .rom)
    (hb : BackedSegment a) (h1 : r.base ≤ a.toNat % 2 ^ 29) (h2 : a.toNat % 2 ^ 29 < r.base + r.size) :
    memRead s a = .ok (s.mem.readWord (a.toNat % 2 ^ 29)) := by
  rw [memRead_word s ha hr (locate_of_number hb h1 h2), State.regionWord, Nat.add_sub_cancel' h1]

/-- A store to main RAM or the scratchpad, by the low 29 bits of the address (R33, R42). -/
theorem memWrite_number (s : State) {a : Word} (v : Word) {r : Region} (ha : aligned a = true)
    (hr : r = .ram ∨ r = .scratch) (hb : BackedSegment a) (h1 : r.base ≤ a.toNat % 2 ^ 29)
    (h2 : a.toNat % 2 ^ 29 < r.base + r.size) :
    memWrite s a v = .ok (s.setMem (s.mem.writeWord (a.toNat % 2 ^ 29) v)) := by
  rw [memWrite_word s v ha hr (locate_of_number hb h1 h2), State.writeRegionWord, Nat.add_sub_cancel' h1]

/-- Settles O18: each test of the chain selects one branch of the bus `load`. -/
theorem busLoadReadsRamAndRomOnly : Obligations.BusLoadReadsRamAndRomOnly := by
  intro s a
  split_ifs with h4 hb hram hrom
  · exact memRead_unaligned s h4
  all_goals have ha : aligned a = true := (aligned_iff a).mpr (not_not.mp h4)
  · exact memRead_number (r := .ram) s ha (.inl rfl) hb (Nat.zero_le _) hram
  · exact memRead_number (r := .rom) s ha (.inr rfl) hb hrom.1 hrom.2
  · refine memRead_unmapped s ha ?_ ?_ <;> rw [Ne, regionOf_eq_some_iff_number] <;> rintro ⟨-, h1, h2⟩
    · exact hram h2
    · exact hrom ⟨h1, h2⟩
  · refine memRead_unmapped s ha ?_ ?_ <;> rw [Ne, regionOf_eq_some_iff_number] <;> exact fun h => hb h.1

/-- Settles O19: each test of the chain selects one branch of the bus `store`. -/
theorem busStoreFollowsTheRegionTable : Obligations.BusStoreFollowsTheRegionTable := by
  intro s a v
  split_ifs with h4 hb hram hscratch h0 h4' hwin
  · exact memWrite_unaligned s v h4
  all_goals have ha : aligned a = true := (aligned_iff a).mpr (not_not.mp h4)
  · exact memWrite_number (r := .ram) s v ha (.inl rfl) hb (Nat.zero_le _) hram
  · exact memWrite_number (r := .scratch) s v ha (.inr rfl) hb hscratch.1 hscratch.2
  · exact memWrite_expansionBase s v ha ((locate_eq_some a .hwreg 0).mpr ⟨hb, h0, by decide⟩) (.inl rfl)
  · exact memWrite_expansionBase s v ha ((locate_eq_some a .hwreg 4).mpr ⟨hb, h4', by decide⟩) (.inr rfl)
  · refine memWrite_window s v ha (locate_of_number (r := .hwreg) hb hwin.1 hwin.2) ?_ ?_ <;>
      simp only [Region.base] <;> omega
  · refine memWrite_unmapped s v ha fun r hr => ?_
    obtain ⟨-, h1, h2⟩ := (regionOf_eq_some_iff_number a r).mp hr
    cases r with
    | ram => exact absurd h2 hram
    | scratch => exact absurd ⟨h1, h2⟩ hscratch
    | hwreg => exact absurd ⟨h1, h2⟩ hwin
    | rom => rfl
  · exact memWrite_unmapped s v ha fun r hr => absurd ((regionOf_eq_some_iff_number a r).mp hr).1 hb

/-! ### Misaligned accesses -/

/-- A cycle whose fetch faults takes the fault and changes nothing else (R100). -/
theorem step_of_fetch_error {s : State} {f : Fault} (hs : s.status = .running) (hf : fetch s = .error f) :
    step s = .next (s.setStatus (.faulted f)) := by
  simp only [step, hs, cycle, hf, raise]

/-- Settles O17: SW and the fetch meet the alignment fault of the bus before anything else. -/
theorem misalignedAccessFaultsFirst : Obligations.MisalignedAccessFaultsFirst := by
  intro s a v h
  refine ⟨memRead_unaligned s h, memWrite_unaligned s v h, fun rs rt imm ha => ?_, fun hs hp => ?_⟩
  · subst ha
    exact execSw_error (memWrite_unaligned s _ h)
  · subst hp
    exact step_of_fetch_error hs (memRead_unaligned s h)

/-! ### Byte order -/

/-- The little-endian word of four bytes as the or of its shifted bytes (R38). -/
theorem wordOfBytes_eq_or (b0 b1 b2 b3 : Byte) :
    wordOfBytes b0 b1 b2 b3 = b0.zeroExtend 32 ||| (b1.zeroExtend 32 <<< 8) ||| (b2.zeroExtend 32 <<< 16) |||
      (b3.zeroExtend 32 <<< 24) := by
  apply BitVec.eq_of_getLsbD_eq
  intro i hi
  simp only [wordOfBytes, BitVec.getLsbD_append, BitVec.getLsbD_or, BitVec.getLsbD_shiftLeft, BitVec.getLsbD_setWidth]
  interval_cases i <;> simp

/-- Byte `k` of a word as a number (R38). -/
theorem toNat_byteOfWord (v : Word) (k : Nat) : (byteOfWord v k).toNat = v.toNat / 2 ^ (8 * k) % 256 := by
  simp [byteOfWord, Nat.shiftRight_eq_div_pow]

/-- Settles O20: a fetch reads a word of a region, and a word is the or of its shifted bytes. -/
theorem wordsAreLittleEndian : Obligations.WordsAreLittleEndian := by
  refine ⟨fun s w h => ?_, fun m p => wordOfBytes_eq_or _ _ _ _, fun m p v k hm hk => ?_,
    fun m p v a h => read_writeWord_out p v h⟩
  · obtain ⟨-, r, o, hl, -, rfl⟩ := memRead_ok h
    exact ⟨r, o, hl, wordOfBytes_eq_or _ _ _ _⟩
  · rw [read_writeWord_in hm p v hk, toNat_byteOfWord]

/-! ### Loads and stores after a store -/

/-- Storing a word twice at one place is storing it once, in canonical memory (R49). -/
theorem writeWord_writeWord_same {m : Memory} (hm : m.wf = true) (p : Nat) (v : Word) :
    (m.writeWord p v).writeWord p v = m.writeWord p v := by
  have hw := wf_writeWord p v hm
  refine Memory.eq_of_reads (wf_writeWord p v hw) hw fun a => ?_
  by_cases ha : a < p ∨ p + 4 ≤ a
  · exact read_writeWord_out p v ha
  · obtain ⟨k, hk, rfl⟩ : ∃ k, k < 4 ∧ a = p + k := ⟨a - p, by omega, by omega⟩
    rw [read_writeWord_in hw p v hk, read_writeWord_in hm p v hk]

/-- Settles O22: a repeated store takes the branch of the first one, and writes the same word to the same place. -/
theorem storesAreIdempotent : Obligations.StoresAreIdempotent := by
  intro s t a v hm h
  obtain ⟨ha, r, o, hl, ⟨-, rfl⟩ | ⟨hr, rfl⟩⟩ := memWrite_ok h
  · exact h
  · rw [memWrite_word _ v ha hr hl]
    exact congrArg (fun m => Except.ok (s.setMem m)) (writeWord_writeWord_same hm _ v)

/-- Outside the window, an aligned access stays inside the storage of its region (R29, R48). -/
theorem locate_aligned_storage {a : Word} {r : Region} {o : Nat} (hl : locate a = some (r, o)) (ha : aligned a = true)
    (hr : r ≠ .hwreg) : o % 4 = 0 ∧ o + 4 ≤ r.storage := by
  have hstorage : r.storage = r.size := by
    cases r with
    | hwreg => exact absurd rfl hr
    | ram | scratch | rom => rfl
  rw [hstorage]
  exact locate_aligned hl ha

/-- Settles O23: a successful access is located and aligned, so it stays inside the storage of its region. -/
theorem accessesStayInsideTheirBuffer : Obligations.AccessesStayInsideTheirBuffer := by
  constructor
  · intro s a w h
    obtain ⟨ha, r, o, hl, hr, hw⟩ := memRead_ok h
    obtain ⟨h4, hin⟩ := locate_aligned_storage hl ha (by rintro rfl; simp at hr)
    exact ⟨r, o, hl, hr, h4, hin, hw⟩
  · intro s t a v h
    obtain ⟨ha, r, o, hl, hwin | ⟨hr, ht⟩⟩ := memWrite_ok h
    · exact ⟨r, o, hl, .inl hwin⟩
    · obtain ⟨h4, hin⟩ := locate_aligned_storage hl ha (by rintro rfl; simp at hr)
      exact ⟨r, o, hl, .inr ⟨hr, h4, hin, ht⟩⟩

/-- The word stored is what a load of a fetchable address of the same region and offset answers (R51). -/
theorem memRead_of_memWrite_same {s t : State} {a b v : Word} (hm : s.mem.wf = true) (h : memWrite s a v = .ok t)
    (hb : Fetchable b) (hl : locate b = locate a) : memRead t b = .ok v := by
  obtain ⟨w, hw⟩ := (memRead_ok_iff t b).mpr hb
  obtain ⟨hab, r, o, hlb, hr, -⟩ := memRead_ok hw
  obtain ⟨-, q, p, hla, hst⟩ := memWrite_ok h
  obtain ⟨rfl, rfl⟩ : r = q ∧ o = p := by simpa [hlb, hla] using hl
  rcases hst with ⟨rfl, -⟩ | ⟨-, rfl⟩
  · simp at hr
  · rw [memRead_word _ hab hr hlb]
    exact congrArg Except.ok (readWord_writeWord hm _ v)

/-- A load depends on the word of its own address alone. -/
theorem memRead_congr_word {s t : State} {b : Word}
    (h : ∀ r o, aligned b = true → locate b = some (r, o) → t.regionWord r o = s.regionWord r o) :
    memRead t b = memRead s b := by
  rcases memRead_cases s b with ⟨ha, o, hl, e⟩ | ⟨ha, o, hl, e⟩ | ⟨ha, hram, hrom, e⟩ | ⟨hna, e⟩ <;> rw [e]
  · rw [memRead_word t ha (.inl rfl) hl, h _ _ ha hl]
  · rw [memRead_word t ha (.inr rfl) hl, h _ _ ha hl]
  · exact memRead_unmapped t ha hram hrom
  · exact memRead_unaligned t ((not_aligned_iff b).mp hna)

/-- A store leaves the load of every address alone whose low 29 bits are not those of the store's (R51). -/
theorem memRead_of_memWrite_other {s t : State} {a b v : Word} (h : memWrite s a v = .ok t)
    (hne : b.toNat % 2 ^ 29 ≠ a.toNat % 2 ^ 29) : memRead t b = memRead s b := by
  obtain ⟨ha, r, o, hla, ⟨-, rfl⟩ | ⟨-, rfl⟩⟩ := memWrite_ok h
  · rfl
  · refine memRead_congr_word fun q p hb hlb => readWord_writeWord_other _ _ v ?_
    obtain ⟨-, hpa, -⟩ := (locate_eq_some a r o).mp hla
    obtain ⟨-, hpb, -⟩ := (locate_eq_some b q p).mp hlb
    rw [aligned_iff] at ha hb
    omega

/-- Settles O21: a view of the stored word has its region and offset, and every other word is clear of it. -/
theorem storeIsSeenThroughEveryView : Obligations.StoreIsSeenThroughEveryView := by
  intro s a v hm h4 hseg hram
  have ha : aligned a = true := (aligned_iff a).mpr h4
  have hl : locate a = some (.ram, a.toNat % 2 ^ 29) :=
    locate_of_number (r := .ram) hseg (Nat.zero_le _) hram
  have hst := memWrite_word s v ha (.inl rfl) hl
  refine ⟨_, hst, fun b hb hab => ?_, fun b hne => memRead_of_memWrite_other hst hne⟩
  have hlb := locate_eq_of_number hl hb hab
  have hfetch : Fetchable b :=
    ⟨(aligned_iff b).mpr (by omega), .inl ((regionOf_eq_some b _).mpr ⟨_, hlb⟩)⟩
  exact memRead_of_memWrite_same hm hst hfetch (hlb.trans hl.symm)

/-! ### The hardware-register window -/

/-- Settles O25: the window's branch of the bus `store`, and the bytes that no step changes. -/
theorem hardwareWindowStoresAreDiscarded : Obligations.HardwareWindowStoresAreDiscarded := by
  refine ⟨fun s rs rt imm o h4 hb hp ho h0 h4' => ?_, fun s t o ho h => ?_⟩
  · have hl : locate (s.effectiveAddress rs imm) = some (.hwreg, o) := (locate_eq_some _ .hwreg o).mpr ⟨hb, hp, ho⟩
    exact execSw_ok (memWrite_window s _ ((aligned_iff _).mpr h4) hl h0 h4')
  · exact (SameFixedParts.step h).regionByte (r := .hwreg) (by decide) (by decide) ho

/-- The expansion-base registers lie at aligned addresses of the window (R44). -/
theorem locate_expansionBase {a : Word} {o : Nat} (ho : o = 0 ∨ o = 4) (hb : BackedSegment a)
    (hp : a.toNat % 2 ^ 29 = 0x1F801000 + o) : aligned a = true ∧ locate a = some (.hwreg, o) := by
  have hsize : o < Region.hwreg.size := by rcases ho with rfl | rfl <;> decide
  exact ⟨(aligned_iff a).mpr (by omega), (locate_eq_some a .hwreg o).mpr ⟨hb, hp, hsize⟩⟩

/-- Settles O26: the expansion-base branch of the bus `store`, the window's branch of the bus `load`, and the empty
storage of reset. -/
theorem expansionBaseRegistersRejectEveryAccess : Obligations.ExpansionBaseRegistersRejectEveryAccess := by
  refine ⟨fun s rs rt imm o ho hb hp => ?_, fun s a o ho hb hp => ?_, fun policy o _ => rfl⟩
  · obtain ⟨ha, hl⟩ := locate_expansionBase ho hb hp
    exact execSw_error (memWrite_expansionBase s _ ha hl ho)
  · obtain ⟨ha, hl⟩ := locate_expansionBase ho hb hp
    exact memRead_unmapped s ha (by simp [regionOf, hl]) (by simp [regionOf, hl])

/-! ### A store and the lookahead slot -/

/-- The word after a located one lies in the same region or in none: no two regions adjoin (R34). -/
theorem region_eq_of_locate_add_four {a : Word} {r q : Region} {o p : Nat} (ha : locate a = some (r, o))
    (h : locate (a + 4#32) = some (q, p)) : q = r := by
  obtain ⟨-, hpa, ho⟩ := (locate_eq_some a r o).mp ha
  obtain ⟨-, hpb, hp⟩ := (locate_eq_some _ q p).mp h
  rw [BitVec.toNat_add, BitVec.toNat_ofNat] at hpb
  cases r <;> cases q <;> simp only [Region.base, Region.size, reduceCtorEq] at * <;> omega

/-- The word after a fetchable one is fetchable where it is located at all. -/
theorem fetchable_add_four {a : Word} {q : Region} {p : Nat} (ha : Fetchable a)
    (h : locate (a + 4#32) = some (q, p)) : Fetchable (a + 4#32) := by
  obtain ⟨h4, hreg⟩ := ha
  have hnext : ∀ r, regionOf a = some r → regionOf (a + 4#32) = some r := by
    intro r hr
    obtain ⟨o, hl⟩ := (regionOf_eq_some a r).mp hr
    obtain rfl := region_eq_of_locate_add_four hl h
    exact (regionOf_eq_some _ q).mpr ⟨p, h⟩
  exact ⟨aligned_add_four h4, hreg.imp (hnext _) (hnext _)⟩

/-- An SW that leaves the core running did its store (R92, R98). -/
theorem memWrite_of_execSw_running {rs rt : Nat} {imm : BitVec 16} {s t : State}
    (h : execSw rs rt imm s = .next t) (ht : t.status = .running) :
    memWrite s (s.effectiveAddress rs imm) (s.readReg rt) = .ok t := by
  cases hw : memWrite s (s.effectiveAddress rs imm) (s.readReg rt) with
  | ok u => rw [execSw_ok hw] at h; cases h; rfl
  | error f => rw [execSw_error hw] at h; cases h; cases ht

/-- Settles O38: the cycle's store comes after its fetch, and a fetchable address of the same place loads its word. -/
theorem storeIsTooLateForTheWordInTheSlot : Obligations.StoreIsTooLateForTheWordInTheSlot := by
  intro s t r w rs rt imm hs hm hslot hd hf hst ht
  rw [step_of_instr hs hslot hd hf] at hst
  have hw : memWrite (prefetched s w) (s.effectiveAddress rs imm) (s.readReg rt) = .ok t :=
    memWrite_of_execSw_running hst ht
  have hpc : Fetchable s.pc := (memRead_ok_iff s s.pc).mp ⟨w, hf⟩
  refine ⟨exec_slot hst, fun hl => memRead_of_memWrite_same (s := prefetched s w) hm hw hpc hl.symm, fun hl => ?_⟩
  obtain ⟨-, -, -, hpct, -⟩ := memWrite_frame hw
  obtain ⟨-, q, p, hla, -⟩ := memWrite_ok hw
  rw [fetch, hpct]
  exact memRead_of_memWrite_same (s := prefetched s w) hm hw (fetchable_add_four hpc (hl.symm.trans hla)) hl.symm

end Sys2Proof.Machine

/-! SUPPORT. The encoding family (spec 30_encoding.md): the decoder by rows and by numbers, the round trips of the codec,
the extensions of an immediate, and the assembler's expansions. -/

namespace Sys2Proof

/-! ### The decoder, row by row (R66, R67) -/

section
variable {w : Word}

theorem decodeWord_sll (h : fieldOpcode w = opSpecial) (hf : fieldFunct w = functSll) :
    decodeWord w = .instr (.sll (fieldRd w).toNat (fieldRt w).toNat (fieldShamt w).toNat) := by
  simp [decodeWord, h, hf]

theorem decodeWord_j (h : fieldOpcode w = opJ) : decodeWord w = .instr (.j (fieldTarget w)) := by
  simp [decodeWord, h, opJ, opSpecial]

theorem decodeWord_addiu (h : fieldOpcode w = opAddiu) :
    decodeWord w = .instr (.addiu (fieldRs w).toNat (fieldRt w).toNat (fieldImmediate w)) := by
  simp [decodeWord, h, opAddiu, opSpecial, opJ]

theorem decodeWord_ori (h : fieldOpcode w = opOri) :
    decodeWord w = .instr (.ori (fieldRs w).toNat (fieldRt w).toNat (fieldImmediate w)) := by
  simp [decodeWord, h, opOri, opSpecial, opJ, opAddiu]

theorem decodeWord_lui (h : fieldOpcode w = opLui) :
    decodeWord w = .instr (.lui (fieldRt w).toNat (fieldImmediate w)) := by
  simp [decodeWord, h, opLui, opSpecial, opJ, opAddiu, opOri]

theorem decodeWord_sw (h : fieldOpcode w = opSw) :
    decodeWord w = .instr (.sw (fieldRs w).toNat (fieldRt w).toNat (fieldImmediate w)) := by
  simp [decodeWord, h, opSw, opSpecial, opJ, opAddiu, opOri, opLui]

end

/-- The illegal words, by their fields (R68). -/
theorem decodeWord_eq_illegal_iff (w : Word) :
    decodeWord w = .illegal w ↔
      (fieldOpcode w = opSpecial ∧ fieldFunct w ≠ functSll) ∨
      (fieldOpcode w ≠ opSpecial ∧ fieldOpcode w ≠ opJ ∧ fieldOpcode w ≠ opAddiu ∧ fieldOpcode w ≠ opOri ∧
        fieldOpcode w ≠ opLui ∧ fieldOpcode w ≠ opSw) := by
  constructor
  · intro h
    rcases decodeWord_cases w with ⟨-, -, e⟩ | ⟨-, e⟩ | ⟨-, e⟩ | ⟨-, e⟩ | ⟨-, e⟩ | ⟨-, e⟩ | ⟨hw, -⟩
    case inr.inr.inr.inr.inr.inr => exact hw
    all_goals rw [e] at h; cases h
  · rintro (⟨ho, hf⟩ | ⟨h0, h1, h2, h3, h4, h5⟩)
    · simp only [decodeWord, ho, hf, if_true, if_false]
    · simp only [decodeWord, h0, h1, h2, h3, h4, h5, if_false]

/-! ### Encoding, then decoding -/

theorem isRegIndex_iff (n : Nat) : isRegIndex n = true ↔ n < 32 := by simp [isRegIndex]

theorem isShiftAmount_iff (n : Nat) : isShiftAmount n = true ↔ n < 32 := by simp [isShiftAmount]

/-- The decoder gives a well-formed instruction back from its word (R59, R66, R67). -/
theorem decodeWord_encode {i : Instr} (h : i.wf = true) : decodeWord (encode i) = .instr i := by
  cases i <;> simp only [Instr.wf, Bool.and_eq_true, isRegIndex_iff, isShiftAmount_iff] at h
  case sll rd rt shamt =>
    obtain ⟨⟨hd, ht⟩, hs⟩ := h
    rw [encode, decodeWord_sll (opcode_formatR ..) (funct_formatR ..)]
    simp only [rd_formatR, rt_formatR, shamt_formatR, toNat_field5 hd, toNat_field5 ht, toNat_field5 hs]
  case lui rt imm =>
    rw [encode, decodeWord_lui (opcode_formatI ..)]
    simp only [rt_formatI, immediate_formatI, toNat_field5 h]
  case ori rs rt imm =>
    obtain ⟨hs, ht⟩ := h
    rw [encode, decodeWord_ori (opcode_formatI ..)]
    simp only [rs_formatI, rt_formatI, immediate_formatI, toNat_field5 hs, toNat_field5 ht]
  case addiu rs rt imm =>
    obtain ⟨hs, ht⟩ := h
    rw [encode, decodeWord_addiu (opcode_formatI ..)]
    simp only [rs_formatI, rt_formatI, immediate_formatI, toNat_field5 hs, toNat_field5 ht]
  case sw rs rt imm =>
    obtain ⟨hs, ht⟩ := h
    rw [encode, decodeWord_sw (opcode_formatI ..)]
    simp only [rs_formatI, rt_formatI, immediate_formatI, toNat_field5 hs, toNat_field5 ht]
  case j target =>
    rw [encode, decodeWord_j (opcode_formatJ ..), target_formatJ]

/-- The bytes of a word, at the front of a byte string, decode as the word does (R57). -/
theorem decodeBytes_bytesOfWord {w : Word} {i : Instr} (h : decodeWord w = .instr i) (rest : List Byte) :
    decodeBytes (bytesOfWord w ++ rest) = .instr i rest := by
  simp only [bytesOfWord, List.cons_append, List.nil_append, decodeBytes, Machine.wordOfBytes_bytes, h]

/-- A word's own number, as 32 table bits, decodes as the word does. -/
theorem decodeTableWord_toNat {w : Word} {i : Instr} (h : decodeWord w = .instr i) :
    decodeTableWord 32 w.toNat = some i := by
  have hw : tableWord 32 w.toNat = w := by
    rw [tableWord, Nat.mod_eq_of_lt w.isLt, BitVec.ofNat_toNat, BitVec.setWidth_eq]
  have hb : decodeBytes (bytesOfWord w) = .instr i [] := by simpa using decodeBytes_bytesOfWord h []
  rw [decodeTableWord, hw, hb]

/-- Settles O1: the decoder inverts the encoder on words, and the other two decoders are it on the word's bytes. -/
theorem encodeThenDecodeGivesTheInstruction : Obligations.EncodeThenDecodeGivesTheInstruction := by
  intro i hi
  have h := decodeWord_encode hi
  exact ⟨h, decodeBytes_bytesOfWord h, decodeTableWord_toNat h⟩

/-! ### Decoding, then encoding -/

theorem isRegIndex_toNat (b : BitVec 5) : isRegIndex b.toNat = true := (isRegIndex_iff _).mpr b.isLt

theorem isShiftAmount_toNat (b : BitVec 5) : isShiftAmount b.toNat = true := (isShiftAmount_iff _).mpr b.isLt

/-- Words that agree outside the `rs` field agree in every other field that SLL or LUI reads (R69). -/
theorem fields_eq_of_noRs_eq {v w : Word} (h : v &&& 0xFC1FFFFF#32 = w &&& 0xFC1FFFFF#32) :
    fieldOpcode v = fieldOpcode w ∧ fieldRt v = fieldRt w ∧ fieldRd v = fieldRd w ∧ fieldShamt v = fieldShamt w ∧
      fieldFunct v = fieldFunct w ∧ fieldImmediate v = fieldImmediate w := by
  have hR := h
  rw [← formatR_fields_noRs, ← formatR_fields_noRs] at hR
  rw [← formatI_fields_noRs, ← formatI_fields_noRs] at h
  refine ⟨?_, ?_, ?_, ?_, ?_, ?_⟩
  · simpa using congrArg fieldOpcode hR
  · simpa using congrArg fieldRt hR
  · simpa using congrArg fieldRd hR
  · simpa using congrArg fieldShamt hR
  · simpa using congrArg fieldFunct hR
  · simpa using congrArg fieldImmediate h

/-- The decoder gives only well-formed instructions (R64, R67). -/
theorem wf_of_decodeWord {w : Word} {i : Instr} (h : decodeWord w = .instr i) : i.wf = true := by
  rcases decodeWord_cases w with ⟨-, -, e⟩ | ⟨-, e⟩ | ⟨-, e⟩ | ⟨-, e⟩ | ⟨-, e⟩ | ⟨-, e⟩ | ⟨-, e⟩ <;>
    rw [e] at h <;> cases h <;> simp [Instr.wf, isRegIndex_toNat, isShiftAmount_toNat]

/-- A decoded instruction encodes to the bits of its word that decoding reads (R69). -/
theorem encode_of_decodeWord {w : Word} {i : Instr} (h : decodeWord w = .instr i) : encode i = w &&& i.readMask := by
  have hall : w &&& 0xFFFFFFFF#32 = w := BitVec.and_allOnes (x := w)
  rcases decodeWord_cases w with ⟨ho, hf, e⟩ | ⟨ho, e⟩ | ⟨ho, e⟩ | ⟨ho, e⟩ | ⟨ho, e⟩ | ⟨ho, e⟩ | ⟨-, e⟩ <;>
    rw [e] at h <;> cases h <;> simp only [encode, Instr.readMask, field5_toNat, hall]
  · rw [← ho, ← hf, formatR_fields_noRs]
  · rw [← ho, formatJ_fields]
  · rw [← ho, formatI_fields]
  · rw [← ho, formatI_fields]
  · rw [← ho, formatI_fields_noRs]
  · rw [← ho, formatI_fields]

/-- The decoder ignores the bits outside the mask of the instruction it finds (R69). -/
theorem decodeWord_congr_readMask {v w : Word} {i : Instr} (h : decodeWord w = .instr i)
    (hv : v &&& i.readMask = w &&& i.readMask) : decodeWord v = .instr i := by
  have hall (x : Word) : x &&& 0xFFFFFFFF#32 = x := BitVec.and_allOnes (x := x)
  rcases decodeWord_cases w with ⟨ho, hf, e⟩ | ⟨-, e⟩ | ⟨-, e⟩ | ⟨-, e⟩ | ⟨ho, e⟩ | ⟨-, e⟩ | ⟨-, e⟩ <;>
    have h' := h <;> rw [e] at h' <;> cases h' <;> simp only [Instr.readMask, hall] at hv
  · obtain ⟨hop, hrt, hrd, hshamt, hfunct, -⟩ := fields_eq_of_noRs_eq hv
    rw [decodeWord_sll (hop.trans ho) (hfunct.trans hf), hrt, hrd, hshamt]
  · rwa [hv]
  · rwa [hv]
  · rwa [hv]
  · obtain ⟨hop, hrt, -, -, -, himm⟩ := fields_eq_of_noRs_eq hv
    rw [decodeWord_lui (hop.trans ho), hrt, himm]
  · rwa [hv]

/-- Settles O2: decoding reads the bits of the instruction's mask, and encoding writes them back. -/
theorem decodedWordEncodesBackUpToUnusedField : Obligations.DecodedWordEncodesBackUpToUnusedField :=
  fun _ _ h => ⟨wf_of_decodeWord h, encode_of_decodeWord h, fun _ => decodeWord_congr_readMask h⟩

/-! ### The opcode map by number (R65 to R68) -/

theorem fieldOpcode_eq_iff (w : Word) (op : BitVec 6) : fieldOpcode w = op ↔ w.toNat / 2 ^ 26 = op.toNat := by
  have := w.isLt
  rw [← BitVec.toNat_inj, toNat_fieldOpcode]
  omega

theorem fieldFunct_eq_iff (w : Word) (funct : BitVec 6) : fieldFunct w = funct ↔ w.toNat % 64 = funct.toNat := by
  rw [← BitVec.toNat_inj, toNat_fieldFunct]
  rfl

theorem fieldImmediate_eq_ofNat (w : Word) : fieldImmediate w = BitVec.ofNat 16 w.toNat := by
  apply BitVec.eq_of_toNat_eq; rw [toNat_fieldImmediate, BitVec.toNat_ofNat]

theorem fieldTarget_eq_ofNat (w : Word) : fieldTarget w = BitVec.ofNat 26 w.toNat := by
  apply BitVec.eq_of_toNat_eq; rw [toNat_fieldTarget, BitVec.toNat_ofNat]

/-- The illegal words, by the numbers of their fields (R68). -/
theorem decodeWord_eq_illegal_iff_number (w : Word) :
    decodeWord w = .illegal w ↔
      w.toNat / 2 ^ 26 ∉ [0x00, 0x02, 0x09, 0x0D, 0x0F, 0x2B] ∨ (w.toNat / 2 ^ 26 = 0x00 ∧ w.toNat % 64 ≠ 0) := by
  rw [decodeWord_eq_illegal_iff, or_comm]
  simp only [ne_eq, fieldOpcode_eq_iff, fieldFunct_eq_iff, List.mem_cons, List.not_mem_nil, or_false, not_or]
  rfl

/-- Settles O3: a number selects a row of the decoder, and the row's operands are the word's fields as numbers. -/
theorem decodeFollowsTheOpcodeMap : Obligations.DecodeFollowsTheOpcodeMap := by
  intro w
  have hrs : w.toNat / 2 ^ 21 % 32 = (fieldRs w).toNat := (toNat_fieldRs w).symm
  have hrt : w.toNat / 2 ^ 16 % 32 = (fieldRt w).toNat := (toNat_fieldRt w).symm
  have hrd : w.toNat / 2 ^ 11 % 32 = (fieldRd w).toNat := (toNat_fieldRd w).symm
  have hshamt : w.toNat / 2 ^ 6 % 32 = (fieldShamt w).toNat := (toNat_fieldShamt w).symm
  rw [hrs, hrt, hrd, hshamt, ← fieldImmediate_eq_ofNat, ← fieldTarget_eq_ofNat]
  exact ⟨fun h hf => decodeWord_sll ((fieldOpcode_eq_iff w _).mpr h) ((fieldFunct_eq_iff w _).mpr hf),
    fun h hf => (decodeWord_eq_illegal_iff_number w).mpr (.inr ⟨h, hf⟩),
    fun h => decodeWord_j ((fieldOpcode_eq_iff w _).mpr h),
    fun h => decodeWord_addiu ((fieldOpcode_eq_iff w _).mpr h),
    fun h => decodeWord_ori ((fieldOpcode_eq_iff w _).mpr h),
    fun h => decodeWord_lui ((fieldOpcode_eq_iff w _).mpr h),
    fun h => decodeWord_sw ((fieldOpcode_eq_iff w _).mpr h),
    fun h => (decodeWord_eq_illegal_iff_number w).mpr (.inl h)⟩

/-! ### Fields as shifts and masks (R58) -/

/-- A field of `n` bits from bit `k` up is the word shifted right by `k` under a mask of `n` ones. -/
theorem zeroExtend_extractLsb'_eq (w : Word) (k n : Nat) :
    (w.extractLsb' k n).zeroExtend 32 = (w >>> k) &&& BitVec.ofNat 32 (2 ^ n - 1) := by
  apply BitVec.eq_of_getLsbD_eq
  intro i hi
  simp only [BitVec.getLsbD_setWidth, BitVec.getLsbD_extractLsb', BitVec.getLsbD_and, BitVec.getLsbD_ushiftRight,
    BitVec.getLsbD_ofNat, Nat.testBit_two_pow_sub_one, hi, decide_true, Bool.true_and, Bool.and_comm]

/-- Settles O5: the shift and mask of each field; the mask drops nothing of the topmost one. -/
theorem fieldsAreShiftsAndMasks : Obligations.FieldsAreShiftsAndMasks := by
  intro w
  refine ⟨?_, zeroExtend_extractLsb'_eq w 21 5, zeroExtend_extractLsb'_eq w 16 5, zeroExtend_extractLsb'_eq w 11 5,
    zeroExtend_extractLsb'_eq w 6 5, ?_, ?_, ?_⟩
  · have := w.isLt
    apply BitVec.eq_of_toNat_eq
    rw [BitVec.toNat_setWidth, toNat_fieldOpcode, BitVec.toNat_ushiftRight, Nat.shiftRight_eq_div_pow]
    omega
  · simpa [fieldFunct] using zeroExtend_extractLsb'_eq w 0 6
  · simpa [fieldImmediate] using zeroExtend_extractLsb'_eq w 0 16
  · simpa [fieldTarget] using zeroExtend_extractLsb'_eq w 0 26

/-- Settles O6: the decoder evaluated on each of the nine words. -/
theorem writtenOutWordsDecode : Obligations.WrittenOutWordsDecode := by
  unfold Obligations.WrittenOutWordsDecode
  decide

end Sys2Proof

namespace Sys2Proof.Machine

/-! ### Illegal words in the cycle (R68, R82) -/

/-- With an illegal word in the slot a cycle that fetches raises `IllegalInstruction` (R75, R82). -/
theorem step_of_illegal {s : State} {r w : Word} (hs : s.status = .running) (hslot : s.slot = .full r)
    (hd : decodeWord r = .illegal r) (hf : fetch s = .ok w) :
    step s = .next ((prefetched s w).setStatus (.faulted (.illegalInstruction r))) := by
  simp only [step, hs, cycle, hf, hslot, retireSlot, retire, hd, raise]

/-- A faulted state has no cycle and reports its fault (R74). -/
theorem step_of_faulted {s : State} {f : Fault} (hs : s.status = .faulted f) : step s = .fault f := by
  simp only [step, hs]

/-- Settles O4: the illegal words by number, and the cycle that retires one. -/
theorem everyOtherWordIsAnIllegalInstruction : Obligations.EveryOtherWordIsAnIllegalInstruction :=
  ⟨decodeWord_eq_illegal_iff_number, fun _ _ _ hs hslot hd hf =>
    ⟨_, step_of_illegal hs hslot hd hf, rfl, step_of_faulted rfl⟩⟩

/-! ### The assembler's jump (R63, R71) -/

/-- Bits 27 to 2 of an aligned address in the block of `pc` are the target that reaches it. -/
theorem jumpTarget_extractLsb' {pc addr : Word} (h4 : addr.toNat % 4 = 0)
    (hb : addr.toNat / 2 ^ 28 = pc.toNat / 2 ^ 28) : jumpTarget pc (addr.extractLsb' 2 26) = addr := by
  apply BitVec.eq_of_toNat_eq
  rw [toNat_jumpTarget, BitVec.extractLsb'_toNat, Nat.shiftRight_eq_div_pow]
  omega

/-- Settles O31: J sets the program counter to its target, and the assembled target reaches the address. -/
theorem assembledJumpReachesItsAddress : Obligations.AssembledJumpReachesItsAddress := by
  intro addr s h4 hb
  calc exec (assembleJ addr) s = .next (s.setPc (jumpTarget s.pc (addr.extractLsb' 2 26))) := rfl
    _ = .next (s.setPc addr) := by rw [jumpTarget_extractLsb' h4 hb]

/-! ### Immediates as words (R61, R62) -/

theorem zext16_ofInt {imm : Int} (h0 : 0 ≤ imm) (h : imm ≤ 0xFFFF) :
    zext16 (BitVec.ofInt 16 imm) = BitVec.ofInt 32 imm := by
  apply BitVec.eq_of_toNat_eq
  rw [zext16, BitVec.toNat_setWidth, BitVec.toNat_ofInt, BitVec.toNat_ofInt]
  omega

theorem sext16_ofInt {imm : Int} (h1 : -32768 ≤ imm) (h2 : imm < 32768) :
    sext16 (BitVec.ofInt 16 imm) = BitVec.ofInt 32 imm := by
  rw [sext16, BitVec.signExtend, BitVec.toInt_ofInt, Int.bmod_eq_of_le (by omega) (by omega)]

/-- A word is its upper half shifted up, or-ed with its lower half (R62). -/
theorem upperHalf_or_lowerHalf (v : Word) : upperImmediate (upperHalf v) ||| zext16 (lowerHalf v) = v := by
  apply BitVec.eq_of_getLsbD_eq
  intro i hi
  simp only [upperImmediate, upperHalf, zext16, lowerHalf, BitVec.getLsbD_or, BitVec.getLsbD_append,
    BitVec.getLsbD_setWidth, BitVec.getLsbD_extractLsb']
  by_cases h : i < 16
  · simp [h, hi]
  · simp [h, show i - 16 < 16 by omega, show 16 + (i - 16) = i by omega]

/-- Settles O11: the bits of a sign extension, and the same bits written as an or. -/
theorem signExtensionReplicatesBit15 : Obligations.SignExtensionReplicatesBit15 := by
  intro imm
  have hlow (k : Nat) (h : k < 16) : (sext16 imm).getLsbD k = imm.getLsbD k := by
    simp only [sext16, BitVec.getLsbD_signExtend, h, show k < 32 by omega, if_true, decide_true, Bool.true_and]
  have hhigh (k : Nat) (h1 : 16 ≤ k) (h2 : k < 32) : (sext16 imm).getLsbD k = imm.getLsbD 15 := by
    simp only [sext16, BitVec.getLsbD_signExtend, h2, show ¬ k < 16 by omega, if_false, decide_true, Bool.true_and,
      BitVec.msb_eq_getLsbD_last]
  refine ⟨hlow, hhigh, BitVec.eq_of_getLsbD_eq fun k hk => ?_⟩
  have hzext : (zext16 imm).getLsbD k = imm.getLsbD k := by
    simp only [zext16, BitVec.getLsbD_setWidth, hk, decide_true, Bool.true_and]
  have hmask : ∀ k < 32, ∀ b : Bool,
      (if b then 0xFFFF0000#32 else 0x00000000#32).getLsbD k = (b && decide (16 ≤ k)) := by decide
  rw [BitVec.getLsbD_or, hzext, hmask k hk]
  by_cases h : k < 16
  · simp [hlow k h, show ¬ 16 ≤ k by omega]
  · simp [hhigh k (by omega) hk, show 16 ≤ k by omega]

/-! ### Forms that change nothing (R16, R70) -/

/-- Settles O12: the destination of each form is register 0, where a write is discarded. -/
theorem formsThatWriteRegisterZeroChangeNothing : Obligations.FormsThatWriteRegisterZeroChangeNothing :=
  ⟨by decide, fun _ _ s => congrArg Host.Outcome.next (writeReg_zero s _),
    fun _ s => congrArg Host.Outcome.next (writeReg_zero s _),
    fun _ _ s => congrArg Host.Outcome.next (writeReg_zero s _),
    fun _ _ s => congrArg Host.Outcome.next (writeReg_zero s _)⟩

/-! ### Pseudo-instructions (R72) -/

/-- One register write puts the value in its register and leaves everything else alone (R16). -/
theorem writeReg_value_and_frame (s : State) {d : Nat} (v : Word) (h0 : d ≠ 0) (h : d < 32) :
    (s.writeReg d v).readReg d = v ∧ SameRegsBut d s (s.writeReg d v) ∧ SameRest s (s.writeReg d v) ∧
      SameBytes s (s.writeReg d v) ∧ (s.writeReg d v).pc = s.pc :=
  ⟨readReg_writeReg_same s v h0 h, fun _ hi => readReg_writeReg_other s v hi,
    ⟨writeReg_hi .., writeReg_lo .., writeReg_slot .., writeReg_status ..⟩,
    fun a => by rw [writeReg_mem], writeReg_pc ..⟩

/-- LUI and ORI with the two halves of a word load the word. -/
theorem execAll_lui_ori (s : State) {rt : Nat} (v : Word) (h0 : rt ≠ 0) (h : rt < 32) :
    execAll [.lui rt (upperHalf v), .ori rt rt (lowerHalf v)] s = .next (s.writeReg rt v) := by
  simp only [execAll, exec, execLui, execOri, readReg_writeReg_same s _ h0 h, writeReg_writeReg_same,
    upperHalf_or_lowerHalf]

/-- The expansion of `li` writes the 32-bit pattern of its immediate, in each of its ranges (R72). -/
theorem execAll_expandLi (s : State) {rt : Nat} (imm : Int) (h0 : rt ≠ 0) (h : rt < 32) :
    execAll (expandLi rt imm) s = .next (s.writeReg rt (BitVec.ofInt 32 imm)) := by
  unfold expandLi
  split
  next hr => simp only [execAll, exec, execOri, readReg_zero, BitVec.zero_or, zext16_ofInt hr.1 hr.2]
  next =>
    split
    next hr => simp only [execAll, exec, execAddiu, readReg_zero, BitVec.zero_add, sext16_ofInt hr.1 (by omega)]
    next =>
      split
      next hl =>
        have hv := upperHalf_or_lowerHalf (BitVec.ofInt 32 imm)
        rw [hl, show zext16 0#16 = 0#32 by decide, BitVec.or_zero] at hv
        simp only [execAll, exec, execLui, hv]
      next => exact execAll_lui_ori s _ h0 h

/-- ADDIU of 0 copies its source register. -/
theorem execAll_move (s : State) (rt rs : Nat) :
    execAll (Pseudo.move rt rs).expand s = .next (s.writeReg rt (s.readReg rs)) := by
  simp only [Pseudo.expand, execAll, exec, execAddiu, show sext16 0#16 = 0#32 by decide, BitVec.add_zero]

/-- Settles O52: each expansion is one write of its value to its register, and `nop` writes register 0. -/
theorem pseudoInstructionsLoadTheirValue : Obligations.PseudoInstructionsLoadTheirValue :=
  ⟨fun s => congrArg Host.Outcome.next (writeReg_zero s _),
    fun _ imm s h0 h _ _ => ⟨_, execAll_expandLi s imm h0 h, writeReg_value_and_frame s _ h0 h⟩,
    fun _ addr s h0 h => ⟨_, execAll_lui_ori s addr h0 h, writeReg_value_and_frame s addr h0 h⟩,
    fun rt rs s h0 h _ => ⟨_, execAll_move s rt rs, writeReg_value_and_frame s _ h0 h⟩⟩

end Sys2Proof.Machine

/-! SUPPORT. The cycle family (spec 40_cycle.md): what a handler may change, the fetch, the program counter after a
cycle, the first cycle, the delay slot, and the states that stop. -/

namespace Sys2Proof.Machine

/-! ### What a handler may change (R18, R80) -/

theorem reads_length_le_two (i : Instr) : i.reads.length ≤ 2 := by
  cases i <;> simp [Instr.reads]

theorem writes_length_le_one (i : Instr) : i.writes.length ≤ 1 := by
  cases i <;> simp [Instr.writes]

/-- Settles O14: the frame of each of the four things a handler can answer. -/
theorem handlersWriteOneRegisterOrStoreOrJump : Obligations.HandlersWriteOneRegisterOrStoreOrJump := by
  intro i s
  refine ⟨reads_length_le_two i, writes_length_le_one i, ?_⟩
  rcases exec_cases i s with ⟨d, v, hd, e⟩ | ⟨rs, rt, imm, t, rfl, hw, e⟩ | ⟨rs, rt, imm, f, rfl, -, e⟩ |
    ⟨target, rfl, e⟩
  · have hother (r : Nat) (hr : r ∉ i.writes) : (s.writeReg d v).readReg r = s.readReg r :=
      readReg_writeReg_other s v (by simpa [hd] using hr)
    exact ⟨_, e, hother, writeReg_slot .., writeReg_hi .., writeReg_lo .., .inl (writeReg_pc ..),
      .inl ⟨writeReg_mem .., writeReg_status ..⟩⟩
  · obtain ⟨hregs, hhi, hlo, hpc, hslot, -⟩ := memWrite_frame hw
    exact ⟨t, e, fun r _ => readReg_congr hregs r, hslot, hhi, hlo, .inl hpc, .inr ⟨rs, rt, imm, rfl⟩⟩
  · exact ⟨_, e, fun _ _ => rfl, rfl, rfl, rfl, .inl rfl, .inr ⟨rs, rt, imm, rfl⟩⟩
  · exact ⟨_, e, fun _ _ => rfl, rfl, rfl, rfl, .inr ⟨target, rfl⟩, .inl ⟨rfl, rfl⟩⟩

/-- Every handler completes (R80). -/
theorem exists_exec_eq_next (i : Instr) (s : State) : ∃ t, exec i s = .next t :=
  have ⟨_, _, t, e, _⟩ := handlersWriteOneRegisterOrStoreOrJump i s
  ⟨t, e⟩

/-- Only J writes the program counter (R80). -/
theorem exec_pc_of_not_jump {i : Instr} {s t : State} (hi : ∀ target, i ≠ .j target) (h : exec i s = .next t) :
    t.pc = s.pc := by
  obtain ⟨-, -, u, e, -, -, -, -, hpc, -⟩ := handlersWriteOneRegisterOrStoreOrJump i s
  rw [e] at h
  cases h
  exact hpc.resolve_right fun ⟨target, hj⟩ => hi target hj

/-! ### The states that stop (R74) -/

/-- A running state takes its cycle. -/
theorem exists_step_eq_next {s : State} (hs : s.status = .running) : ∃ t, step s = .next t := by
  rcases step_cases s with ⟨f, hf, -⟩ | ⟨-, f, -, e⟩ | ⟨-, w, -, -, e⟩ | ⟨-, w, r, -, -, -, e⟩ |
    ⟨-, w, r, i, -, -, -, e⟩
  · rw [hs] at hf; cases hf
  · exact ⟨_, e⟩
  · exact ⟨_, e⟩
  · exact ⟨_, e⟩
  · rw [e]; exact exists_exec_eq_next i _

/-- A step answers a fault exactly from the state faulted with it (R74). -/
theorem step_eq_fault_iff (s : State) (f : Fault) : step s = .fault f ↔ s.status = .faulted f := by
  refine ⟨fun h => ?_, step_of_faulted⟩
  cases hs : s.status with
  | running =>
    obtain ⟨t, e⟩ := exists_step_eq_next hs
    rw [e] at h; cases h
  | faulted g =>
    rw [step_of_faulted hs] at h
    cases h; rfl

theorem step_ne_refused (s : State) (r : Refusal) : step s ≠ .refused r := by
  intro h
  cases hs : s.status with
  | running =>
    obtain ⟨t, e⟩ := exists_step_eq_next hs
    rw [e] at h; cases h
  | faulted f => rw [step_of_faulted hs] at h; cases h

/-- Settles O41: a faulted state reports its fault, and a running one takes its cycle. -/
theorem onlyAFaultedStateStops : Obligations.OnlyAFaultedStateStops :=
  ⟨step_eq_fault_iff, step_ne_refused, fun _ => exists_step_eq_next,
    fun _ _ _ hs => run_succ_fault (step_of_faulted hs)⟩

/-! ### The retiring instruction (R75, R79) -/

/-- Settles O32: the state of the handler is the one after the fetch and the advance. -/
theorem stepRunsTheDecodedInstruction : Obligations.StepRunsTheDecodedInstruction :=
  fun _ _ _ _ hs hslot hd hf => step_of_instr hs hslot hd hf

/-! ### The fetch (R76) -/

/-- A step takes the fault of its fetch and changes nothing else, or leaves the fetched word in the slot. -/
theorem step_fetch_cases {s t : State} (h : step s = .next t) :
    (∃ f, fetch s = .error f ∧ t = s.setStatus (.faulted f)) ∨ ∃ w, fetch s = .ok w ∧ t.slot = .full w := by
  rcases step_cases s with ⟨f, -, e⟩ | ⟨-, f, hf, e⟩ | ⟨-, w, hf, -, e⟩ | ⟨-, w, r, hf, -, -, e⟩ |
    ⟨-, w, r, i, hf, -, -, e⟩ <;> rw [e] at h
  · cases h
  · cases h; exact .inl ⟨f, hf, rfl⟩
  · cases h; exact .inr ⟨w, hf, rfl⟩
  · cases h; exact .inr ⟨w, hf, rfl⟩
  · exact .inr ⟨w, hf, exec_slot h⟩

/-- A running state whose fetch succeeds steps to one with the fetched word in the slot. -/
theorem exists_step_slot_of_fetch {s : State} {w : Word} (hs : s.status = .running) (hf : fetch s = .ok w) :
    ∃ t, step s = .next t ∧ t.slot = .full w := by
  obtain ⟨t, e⟩ := exists_step_eq_next hs
  refine ⟨t, e, ?_⟩
  obtain ⟨f, hf', -⟩ | ⟨v, hv, hslot⟩ := step_fetch_cases e
  · cases hf.symm.trans hf'
  · cases hf.symm.trans hv
    exact hslot

/-- Settles O34: each range of the program counter selects one answer of the bus `load`. -/
theorem fetchFillsTheSlotOrFaults : Obligations.FetchFillsTheSlotOrFaults := by
  intro s hs
  refine ⟨fun h4 => step_of_fetch_error hs (memRead_unaligned s h4), fun h4 hout => ?_, fun h4 hb hin => ?_⟩
  all_goals have ha : aligned s.pc = true := (aligned_iff s.pc).mpr h4
  · refine step_of_fetch_error hs (memRead_unmapped s ha ?_ ?_) <;> rw [Ne, regionOf_eq_some_iff_number] <;>
      rintro ⟨hb, h1, h2⟩
    · exact hout ⟨hb, .inl h2⟩
    · exact hout ⟨hb, .inr ⟨h1, h2⟩⟩
  · refine exists_step_slot_of_fetch hs ?_
    rcases hin with hram | ⟨h1, h2⟩
    · exact memRead_number (r := .ram) s ha (.inl rfl) hb (Nat.zero_le _) hram
    · exact memRead_number (r := .rom) s ha (.inr rfl) hb h1 h2

/-! ### The program counter (R77, R94) -/

/-- A cycle that fetches and retires a J goes to the target in the block of the advanced program counter. -/
theorem step_of_jump {s : State} {r w : Word} {target : BitVec 26} (hs : s.status = .running)
    (hslot : s.slot = .full r) (hd : decodeWord r = .instr (.j target)) (hf : fetch s = .ok w) :
    step s = .next ((prefetched s w).setPc (jumpTarget (s.pc + 4#32) target)) :=
  step_of_instr hs hslot hd hf

/-- A cycle that fetches and retires no J leaves the advanced program counter, whether it ends in a fault or not. -/
theorem step_pc_of_not_jump {s t : State} {w : Word} (hf : fetch s = .ok w)
    (hj : ∀ r target, s.slot = .full r → decodeWord r ≠ .instr (.j target)) (h : step s = .next t) :
    t.pc = s.pc + 4#32 := by
  rcases step_cases s with ⟨f, -, e⟩ | ⟨-, f, hf', e⟩ | ⟨-, v, -, -, e⟩ | ⟨-, v, r, -, -, -, e⟩ |
    ⟨-, v, r, i, -, hslot, hd, e⟩ <;> rw [e] at h
  · cases h
  · cases hf.symm.trans hf'
  · cases h; rfl
  · cases h; rfl
  · exact exec_pc_of_not_jump (fun target hi => hj r target hslot (hi ▸ hd)) h

/-- Settles O35: the cycle that retires a J, and every other one. -/
theorem pcAdvancesByFourUnlessAJumpRetires : Obligations.PcAdvancesByFourUnlessAJumpRetires := by
  intro s w hs hf
  obtain ⟨t, e⟩ := exists_step_eq_next hs
  refine ⟨t, e, fun r target hslot hd => ?_, fun hj => ?_⟩
  · rw [step_of_jump hs hslot hd hf] at e
    cases e
    exact toNat_jumpTarget (s.pc + 4#32) target
  · rw [step_pc_of_not_jump hf hj e]
    exact BitVec.toNat_add s.pc 4#32

/-! ### The first cycle after reset (R83) -/

/-- The word at an offset of the supplied boot ROM (R38, R119). -/
theorem readWord_withRom_rom (m : Memory) (image : List Byte) (o : Nat) :
    (m.withRom image).readWord (Region.rom.base + o) =
      wordOfBytes (image.getD o 0#8) (image.getD (o + 1) 0#8) (image.getD (o + 2) 0#8) (image.getD (o + 3) 0#8) := by
  simp only [Memory.readWord, Nat.add_assoc, read_withRom_rom, Memory.unlisted]

/-- A state that takes an image has an empty slot, and changes in its storage alone (R112, R119). -/
theorem supplyRom_eq_some {s t : State} {image : List Byte} (h : s.supplyRom image = some t) :
    s.slot = .empty ∧ t = s.setMem (s.mem.withRom image) := by
  unfold State.supplyRom at h
  split at h
  · next hc => cases h; exact ⟨hc.2, rfl⟩
  · cases h

/-- The reset vector is the first byte of the boot ROM (R22). -/
theorem locate_resetVector : locate Config.resetVector = some (.rom, 0) := by decide

/-- Settles O36: the cycle at the reset vector fetches the image's first word into the empty slot, and no cycle empties
a full one. -/
theorem firstCycleOnlyPrimesTheSlot : Obligations.FirstCycleOnlyPrimesTheSlot := by
  refine ⟨fun policy image s h => ?_, fun s t hslot h => ?_⟩
  · obtain ⟨hslot, rfl⟩ := supplyRom_eq_some h
    rw [← readWord_withRom_rom [] image 0]
    exact step_of_empty rfl hslot (fetch_of_locate (inv_resetUnder policy).pcAligned (.inr rfl) locate_resetVector)
  · obtain ⟨f, -, rfl⟩ | ⟨w, -, hw⟩ := step_fetch_cases h
    · exact hslot
    · rw [hw]
      exact Slot.noConfusion

/-! ### The delay slot (R85, R96) -/

/-- The program counter of a fetch that succeeds advances without wrapping: segments 6 and 7 have no backing (R33). -/
theorem toNat_add_four_of_memRead {s : State} {a w : Word} (h : memRead s a = .ok w) :
    (a + 4#32).toNat = a.toNat + 4 := by
  obtain ⟨-, r, o, hl, -⟩ := memRead_ok h
  obtain ⟨hseg, -⟩ := (locate_eq_some a r o).mp hl
  rw [BitVec.toNat_add, BitVec.toNat_ofNat]
  omega

/-- Settles O29: the J leaves the word after it in the slot and the target in the program counter; the next cycle
fetches there first, from the same storage. -/
theorem delaySlotRunsWhileTheTargetIsFetched : Obligations.DelaySlotRunsWhileTheTargetIsFetched := by
  intro s r d target hs hslot hd hf
  have hpc : (jumpTarget (s.pc + 4#32) target).toNat = (s.pc.toNat + 4) / 2 ^ 28 * 2 ^ 28 + target.toNat * 4 := by
    rw [toNat_jumpTarget, toNat_add_four_of_memRead hf]
  exact ⟨_, step_of_jump hs hslot hd hf, rfl, hs, fun _ => rfl, fun _ => rfl, hpc,
    fun _ _ hw hi => step_of_instr hs rfl hi hw, fun _ he => step_of_fetch_error hs he⟩

end Sys2Proof.Machine

/-! SUPPORT. The arithmetic and logic family (spec 41_alu.md R87 to R91): the rows of the opcode table as masks, and what
a handler of the family leaves behind. -/

namespace Sys2Proof.Machine

/-! ### Table rows as masks (R66, R67) -/

/-- A mask that covers a field keeps the field. -/
theorem extractLsb'_eq_of_mask {w mask v : Word} {k n : Nat} (h : w &&& mask = v)
    (hm : mask.extractLsb' k n = BitVec.allOnes n) : w.extractLsb' k n = v.extractLsb' k n := by
  rw [← h, BitVec.extractLsb'_and, hm, BitVec.and_allOnes]

/-- The opcode number of a word, from the match value of its row. -/
theorem opcodeNumber_of_mask {w mask v : Word} (h : w &&& mask = v) (hm : fieldOpcode mask = BitVec.allOnes 6) :
    w.toNat / 2 ^ 26 = (fieldOpcode v).toNat :=
  (fieldOpcode_eq_iff w _).mp (extractLsb'_eq_of_mask h hm)

/-- The funct number of a word, from the match value of its row. -/
theorem functNumber_of_mask {w mask v : Word} (h : w &&& mask = v) (hm : fieldFunct mask = BitVec.allOnes 6) :
    w.toNat % 64 = (fieldFunct v).toNat :=
  (fieldFunct_eq_iff w _).mp (extractLsb'_eq_of_mask h hm)

/-! ### The result and the frame of a handler that writes one register (R16, R80) -/

/-- The destination of a well-formed instruction is a register index (R64). -/
theorem lt_of_mem_writes {i : Instr} {d : Nat} (hwf : i.wf = true) (hd : d ∈ i.writes) : d < 32 := by
  cases i <;>
    simp only [Instr.wf, Instr.writes, Bool.and_eq_true, isRegIndex_iff, List.mem_singleton, List.not_mem_nil] at hwf hd
  case sll rd rt shamt => obtain ⟨⟨hrd, -⟩, -⟩ := hwf; rwa [hd]
  case lui rt imm => rwa [hd]
  case ori rs rt imm => obtain ⟨-, hrt⟩ := hwf; rwa [hd]
  case addiu rs rt imm => obtain ⟨-, hrt⟩ := hwf; rwa [hd]

/-- What a handler that answers one register write leaves behind: the value in its destination, unless that is register
0, and everything else as it was. -/
theorem exec_writeReg_spec {i : Instr} {d : Nat} {v : Word} {s : State} (hwf : i.wf = true) (hd : d ∈ i.writes)
    (e : exec i s = .next (s.writeReg d v)) :
    ∃ t, exec i s = .next t ∧ (d ≠ 0 → t.readReg d = v) ∧ (d = 0 → t = s) ∧
      SameRegsBut d s t ∧ SameRest s t ∧ SameBytes s t ∧ t.pc = s.pc := by
  refine ⟨_, e, ?_⟩
  rcases eq_or_ne d 0 with rfl | h0
  · rw [writeReg_zero]
    exact ⟨fun h => absurd rfl h, fun _ => rfl, fun _ _ => rfl, ⟨rfl, rfl, rfl, rfl⟩, fun _ => rfl, rfl⟩
  · obtain ⟨hv, hframe⟩ := writeReg_value_and_frame s v h0 (lt_of_mem_writes hwf hd)
    exact ⟨fun _ => hv, fun h => absurd h h0, hframe⟩

/-! ### The or with an immediate, bit by bit (R90) -/

/-- A zero-extended immediate sets bits of the low half alone (R62, R90). -/
theorem getLsbD_or_zext16 (x : Word) (imm : BitVec 16) {k : Nat} (hk : k < 32) :
    (x ||| zext16 imm).getLsbD k = if k < 16 then x.getLsbD k || imm.getLsbD k else x.getLsbD k := by
  rw [BitVec.getLsbD_or, zext16, BitVec.getLsbD_setWidth, decide_eq_true hk, Bool.true_and]
  split
  · rfl
  · next h => rw [BitVec.getLsbD_of_ge imm k (Nat.le_of_not_lt h), Bool.or_false]

/-! ### The four instructions (R88 to R91) -/

/-- Settles O7: SLL answers one write of the shifted source, and the shift is a multiplication. -/
theorem sllShiftsLeftAndChangesNothingElse : Obligations.SllShiftsLeftAndChangesNothingElse := by
  refine ⟨fun w h => ?_, fun rd rt shamt s hwf => ?_⟩
  · obtain ⟨hsll, -⟩ := decodeFollowsTheOpcodeMap w
    exact hsll (opcodeNumber_of_mask h (by decide)) (functNumber_of_mask h (by decide))
  · obtain ⟨t, e, hv, hrest⟩ := exec_writeReg_spec (s := s) hwf (List.mem_singleton_self rd) rfl
    exact ⟨t, e, fun h0 => by rw [hv h0, BitVec.toNat_shiftLeft, Nat.shiftLeft_eq], hrest⟩

/-- Settles O8: LUI answers one write of the immediate as an upper half. -/
theorem luiLoadsTheUpperHalfAndChangesNothingElse : Obligations.LuiLoadsTheUpperHalfAndChangesNothingElse := by
  refine ⟨fun w h => ?_, fun rt imm s hwf => ?_⟩
  · obtain ⟨-, -, -, -, -, hlui, -⟩ := decodeFollowsTheOpcodeMap w
    exact hlui (opcodeNumber_of_mask h (by decide))
  · obtain ⟨t, e, hv, hrest⟩ := exec_writeReg_spec (s := s) hwf (List.mem_singleton_self rt) rfl
    exact ⟨t, e, fun h0 => by rw [hv h0, toNat_upperImmediate], hrest⟩

/-- Settles O9: ORI answers one write of the source or-ed with the zero-extended immediate. -/
theorem oriSetsTheImmediateBitsAndChangesNothingElse : Obligations.OriSetsTheImmediateBitsAndChangesNothingElse := by
  refine ⟨fun w h => ?_, fun rs rt imm s hwf => ?_⟩
  · obtain ⟨-, -, -, -, hori, -⟩ := decodeFollowsTheOpcodeMap w
    exact hori (opcodeNumber_of_mask h (by decide))
  · obtain ⟨t, e, hv, hrest⟩ := exec_writeReg_spec (s := s) hwf (List.mem_singleton_self rt) rfl
    exact ⟨t, e, fun h0 k hk => by rw [hv h0, getLsbD_or_zext16 _ imm hk], hrest⟩

/-- Settles O10: ADDIU answers one write of the sum with the sign-extended immediate, and no overflow is tested. -/
theorem addiuAddsWrappingAndChangesNothingElse : Obligations.AddiuAddsWrappingAndChangesNothingElse := by
  refine ⟨fun w h => ?_, fun rs rt imm s hwf => ?_⟩
  · obtain ⟨-, -, -, haddiu, -⟩ := decodeFollowsTheOpcodeMap w
    exact haddiu (opcodeNumber_of_mask h (by decide))
  · obtain ⟨t, e, hv, hrest⟩ := exec_writeReg_spec (s := s) hwf (List.mem_singleton_self rt) rfl
    exact ⟨t, e, fun h0 => by rw [hv h0, toNat_add_sext16], hrest⟩

end Sys2Proof.Machine

/-! SUPPORT. The store family (spec 42_store.md): SW to storage, and SW to an address with no backing for a store. -/

namespace Sys2Proof.Machine

/-! ### SW to main RAM or the scratchpad (R38, R92, R93) -/

/-- SW to an aligned address of main RAM or the scratchpad writes the word at its region and offset, and nothing else of
the state. -/
theorem execSw_word (s : State) {rs rt : Nat} {imm : BitVec 16} {r : Region} {o : Nat}
    (ha : aligned (s.effectiveAddress rs imm) = true) (hr : r = .ram ∨ r = .scratch)
    (hl : locate (s.effectiveAddress rs imm) = some (r, o)) :
    execSw rs rt imm s = .next (s.writeRegionWord r o (s.readReg rt)) :=
  execSw_ok (memWrite_word s _ ha hr hl)

/-- The byte at each offset of a stored word, as a number (R38). -/
theorem toNat_regionByte_writeRegionWord {s : State} (hm : s.mem.wf = true) (r : Region) (o : Nat) (v : Word) {k : Nat}
    (hk : k < 4) : ((s.writeRegionWord r o v).regionByte r (o + k)).toNat = v.toNat / 2 ^ (8 * k) % 256 := by
  rw [← toNat_byteOfWord, ← read_writeWord_in hm (r.base + o) v hk, Nat.add_assoc]
  rfl

/-- A stored word keeps every byte outside its four. -/
theorem sameBytesOutside_writeRegionWord (s : State) (r : Region) (o : Nat) (v : Word) :
    SameBytesOutside (r.base + o) s (s.writeRegionWord r o v) :=
  fun _ h => read_writeWord_out (r.base + o) v h

/-- Settles O24: SW answers one word write at the region and offset of its address, the wrapping sum. -/
theorem swStoresTheWordAndChangesNothingElse : Obligations.SwStoresTheWordAndChangesNothingElse := by
  intro rs rt imm s r o hm h4 hr hl
  have hexec := execSw_word s (rt := rt) ((aligned_iff _).mpr h4) hr hl
  exact ⟨toNat_add_sext16 _ imm, _, hexec, fun _ hk => toNat_regionByte_writeRegionWord hm r o _ hk,
    sameBytesOutside_writeRegionWord s r o _, fun _ => rfl, ⟨rfl, rfl, rfl, rfl⟩, rfl⟩

/-! ### SW with no backing for a store (R37, R45, R92) -/

/-- The numbers that no region but the boot ROM covers: the two holes below the ROM, and everything from the end of the
hardware-register window on (R34). -/
theorem region_eq_rom_of_hole {r : Region} {p : Nat} (h1 : r.base ≤ p) (h2 : p < r.base + r.size)
    (h : (0x00200000 ≤ p ∧ p < 0x1F800000) ∨ (0x1F800400 ≤ p ∧ p < 0x1F801000) ∨ 0x1F803000 ≤ p) : r = .rom := by
  cases r with
  | rom => rfl
  | ram | scratch | hwreg => simp only [Region.base, Region.size] at h1 h2; omega

/-- Settles O27: an address in an unbacked segment is in no region, and one of the other numbers in none but the boot
ROM, so the bus `store` has no backing for it. -/
theorem swToUnmappedOrRomRaisesAndWritesNothing : Obligations.SwToUnmappedOrRomRaisesAndWritesNothing := by
  intro rs rt imm s h4 hout
  refine execSw_error (memWrite_unmapped s _ ((aligned_iff _).mpr h4) fun r hr => ?_)
  obtain ⟨hb, h1, h2⟩ := (regionOf_eq_some_iff_number _ r).mp hr
  rcases hout with hseg | hhole
  · exact absurd hb hseg
  · exact region_eq_rom_of_hole h1 h2 hhole

end Sys2Proof.Machine

/-! SUPPORT. The jump family (spec 43_jump.md): the row, the target and the frame of J, and a J in the delay slot of a
J. -/

namespace Sys2Proof.Machine

/-! ### The row, the target and the frame of J (R63, R94) -/

/-- J writes the program counter and nothing else (R94). -/
theorem exec_j (target : BitVec 26) (s : State) : exec (.j target) s = .next (s.setPc (jumpTarget s.pc target)) := rfl

/-- Settles O28: the mask fixes the opcode number of J's row, and the handler answers one write of an aligned target to
the program counter. -/
theorem jumpReplacesTheLow28BitsOfPc : Obligations.JumpReplacesTheLow28BitsOfPc := by
  refine ⟨fun w h => ?_, fun target s => ?_⟩
  · obtain ⟨-, -, hj, -⟩ := decodeFollowsTheOpcodeMap w
    exact hj (opcodeNumber_of_mask h (by decide))
  · have h4 : (jumpTarget s.pc target).toNat % 4 = 0 := (aligned_iff _).mp (aligned_jumpTarget s.pc target)
    exact ⟨_, exec_j target s, toNat_jumpTarget s.pc target, h4, fun _ => rfl, ⟨rfl, rfl, rfl, rfl⟩, fun _ => rfl⟩

/-! ### A J in the delay slot of a J (R96 case 3) -/

/-- Settles O30: the first J leaves the second in the slot and the first target in the program counter; the second
retires while the word there is fetched, and the third cycle retires that word. Neither J writes storage, so each fetch
answers as it does in the first state. -/
theorem jumpInDelaySlotRunsOneWordOfTheFirstTarget : Obligations.JumpInDelaySlotRunsOneWordOfTheFirstTarget := by
  intro s r d w target1 target2 hs hslot hr hd hj hw
  have hpc : (jumpTarget (jumpTarget (s.pc + 4#32) target1 + 4#32) target2).toNat =
      ((jumpTarget (s.pc + 4#32) target1).toNat + 4) / 2 ^ 28 * 2 ^ 28 + target2.toNat * 4 := by
    rw [toNat_jumpTarget, toNat_add_four_of_memRead hw]
  exact ⟨_, _, step_of_jump hs hslot hr hd, step_of_jump hs rfl hj hw, rfl, hs, hpc, fun _ => rfl, fun _ => rfl,
    fun _ _ hx hi => step_of_instr hs rfl hi hx⟩

end Sys2Proof.Machine

/-! SUPPORT. The exceptions family (spec 60_exceptions.md): which fault each bus access and each handler can raise, the
state after a fault, and state inspection. -/

namespace Sys2Proof.Machine

/-! ### What each fault carries (R97, R99) -/

/-- The fault of a load is a bus fault at its address, with the access of a fetch (R41). -/
theorem memRead_error_eq {s : State} {a : Word} {f : Fault} (h : memRead s a = .error f) :
    ∃ kind, f = .bus kind a .fetch := by
  rcases memRead_cases s a with ⟨-, o, -, e⟩ | ⟨-, o, -, e⟩ | ⟨-, -, -, e⟩ | ⟨-, e⟩ <;> rw [e] at h <;> cases h
  · exact ⟨.unmapped, rfl⟩
  · exact ⟨.unaligned, rfl⟩

/-- The fault of a store is a bus fault at its address, or an expansion-base fault with its address and value (R42,
R44). -/
theorem memWrite_error_eq {s : State} {a v : Word} {f : Fault} (h : memWrite s a v = .error f) :
    (∃ kind, f = .bus kind a .store) ∨ ∃ o, f = .expansionMapOverwrite o a v := by
  rcases memWrite_cases s a v with ⟨-, r, o, -, -, e⟩ | ⟨-, o, -, -, -, e⟩ | ⟨-, o, -, -, e⟩ | ⟨-, -, e⟩ | ⟨-, e⟩ <;>
    rw [e] at h <;> cases h
  · exact .inr ⟨o, rfl⟩
  · exact .inl ⟨.unmapped, rfl⟩
  · exact .inl ⟨.unaligned, rfl⟩

/-! ### Where a fault comes from (R99) -/

/-- A handler keeps the status, or it is SW's and the bus turned its store away (R80, R92). -/
theorem exec_status_cases {i : Instr} {s t : State} (h : exec i s = .next t) :
    t.status = s.status ∨
    ∃ rs rt imm f, i = .sw rs rt imm ∧ memWrite s (s.effectiveAddress rs imm) (s.readReg rt) = .error f ∧
      t.status = .faulted f := by
  rcases exec_cases i s with ⟨d, v, -, e⟩ | ⟨rs, rt, imm, u, -, hw, e⟩ | ⟨rs, rt, imm, f, hi, hw, e⟩ | ⟨target, -, e⟩ <;>
    rw [e] at h <;> cases h
  · exact .inl (writeReg_status s d v)
  · obtain ⟨-, -, -, -, -, hstatus⟩ := memWrite_frame hw
    exact .inl hstatus
  · exact .inr ⟨rs, rt, imm, f, hi, hw, rfl⟩
  · exact .inl rfl

/-- A step from a running state into a faulted one took the fault of its fetch, of the illegal word in its slot, or of
the store of the SW in its slot; the store's address and value are those before the fetch (R99). -/
theorem step_faulted_cases {s t : State} {f : Fault} (hs : s.status = .running) (h : step s = .next t)
    (ht : t.status = .faulted f) :
    fetch s = .error f ∨
    (∃ w r, fetch s = .ok w ∧ s.slot = .full r ∧ decodeWord r = .illegal r ∧ f = .illegalInstruction r) ∨
    (∃ w r rs rt imm, fetch s = .ok w ∧ s.slot = .full r ∧ decodeWord r = .instr (.sw rs rt imm) ∧
      memWrite s (s.effectiveAddress rs imm) (s.readReg rt) = .error f) := by
  rcases step_cases s with ⟨g, -, e⟩ | ⟨-, g, hf, e⟩ | ⟨-, w, -, -, e⟩ | ⟨-, w, r, hf, hslot, hd, e⟩ |
    ⟨-, w, r, i, hf, hslot, hd, e⟩ <;> rw [e] at h
  · cases h
  · cases h; cases ht
    exact .inl hf
  · cases h; cases hs.symm.trans ht
  · cases h; cases ht
    exact .inr (.inl ⟨w, r, hf, hslot, hd, rfl⟩)
  · rcases exec_status_cases h with hstatus | ⟨rs, rt, imm, g, rfl, hw, hstatus⟩
    · cases hs.symm.trans (hstatus.symm.trans ht)
    · cases hstatus.symm.trans ht
      exact .inr (.inr ⟨w, r, rs, rt, imm, hf, hslot, hd, memWrite_error_any s hw⟩)

/-- Settles O42: each of the three sources fixes what its fault carries and meets the condition of its row. -/
theorem everyFaultHasItsSource : Obligations.EveryFaultHasItsSource := by
  refine ⟨fun s t f hs h ht => ?_, fun i s t h hne => ?_⟩
  · rcases step_faulted_cases hs h ht with hf | ⟨w, r, hf, hslot, hd, rfl⟩ | ⟨w, r, rs, rt, imm, hf, hslot, hd, hw⟩
    · exact ⟨memRead_error hf, .inl ⟨hf, memRead_error_eq hf⟩⟩
    · exact ⟨hd, .inr (.inl ⟨w, r, hf, hslot, hd, rfl⟩)⟩
    · exact ⟨memWrite_error hw, .inr (.inr ⟨w, r, rs, rt, imm, hf, hslot, hd, hw, memWrite_error_eq hw⟩)⟩
  · obtain ⟨rs, rt, imm, -, hi, -⟩ := (exec_status_cases h).resolve_left hne
    exact ⟨rs, rt, imm, hi⟩

/-! ### The state after a fault (R98, R100) -/

/-- With an SW in the slot whose store the bus turns away, a cycle that fetches takes the store's fault (R92, R100). -/
theorem step_of_sw_error {s : State} {r w : Word} {rs rt : Nat} {imm : BitVec 16} {f : Fault}
    (hs : s.status = .running) (hslot : s.slot = .full r) (hd : decodeWord r = .instr (.sw rs rt imm))
    (hf : fetch s = .ok w) (hw : memWrite s (s.effectiveAddress rs imm) (s.readReg rt) = .error f) :
    step s = .next ((prefetched s w).setStatus (.faulted f)) := by
  rw [step_of_instr hs hslot hd hf]
  exact execSw_error (memWrite_error_any (prefetched s w) hw)

/-- Settles O40: one cycle for each row of the table. -/
theorem faultsArePrecise : Obligations.FaultsArePrecise :=
  ⟨fun _ _ hs hf => step_of_fetch_error hs hf, fun _ _ _ hs hf hslot hd => step_of_illegal hs hslot hd hf,
    fun _ _ _ _ _ _ _ hs hf hslot hd hw => step_of_sw_error hs hslot hd hf hw⟩

/-! ### Priority (R101) -/

/-- Settles O43: the cycle takes the fetch's fault, which is a bus fault, and the odd address is not aligned. -/
theorem fetchFaultComesBeforeDecodeFault : Obligations.FetchFaultComesBeforeDecodeFault := by
  refine ⟨fun s r f hs _ _ hf => ⟨_, step_of_fetch_error hs hf, rfl, ?_⟩, fun s a v ha => ?_⟩
  · obtain ⟨kind, rfl⟩ := memRead_error_eq hf
    exact Fault.noConfusion
  · exact memWrite_unaligned s v (by rw [ha]; decide)

/-! ### State inspection (R110) -/

/-- A region's window shows, by offset, the bytes of the region. -/
theorem read_window (m : Memory) {r : Region} {o : Nat} (ho : o < r.size) :
    (m.window r).read o = m.read (r.base + o) := by
  unfold Memory.window
  induction m with
  | nil => rfl
  | cons c m ih =>
    rw [List.filter_cons, read_cons]
    split
    · next hc =>
      obtain ⟨hbase, -⟩ := (contains_iff r c.1).mp hc
      have hoff : o = c.1 - r.base ↔ r.base + o = c.1 := by omega
      rw [List.map_cons, read_cons, ih]
      simp only [hoff]
    · next hc =>
      rw [contains_iff] at hc
      rw [ih, if_neg (by omega)]

/-- Settles O51: the register list is the reads in order, and each window shows its region's bytes. -/
theorem inspectionShowsTheState : Obligations.InspectionShowsTheState := by
  intro s
  refine ⟨fun i hi => ?_, ?_, rfl, rfl, rfl, fun o ho => read_window s.mem ho, fun o ho => read_window s.mem ho⟩
  · simp [State.inspect, hi]
  · simp [State.inspect]

end Sys2Proof.Machine

/-! SUPPORT. The reset and hazard family (spec 70_reset_and_hazards.md): a run in the boot block, the end of a fetchable
region, ROM supply, and the record of the state at reset. -/

namespace Sys2Proof.Machine

/-! ### Runs in the boot block (R117) -/

/-- The boot block by number: the top 4 bits of the program counter. -/
theorem inBootBlock_iff (s : State) : s.inBootBlock ↔ s.pc.toNat / 2 ^ 28 = 0xB := by
  have hpc := s.pc.isLt
  rw [State.inBootBlock, ← BitVec.toNat_inj, BitVec.extractLsb'_toNat, Nat.shiftRight_eq_div_pow,
    Nat.mod_eq_of_lt (by omega)]
  rfl

/-- Of the fetchable regions only the boot ROM has a view in the boot block: that of main RAM in segment 5 ends below
it (R36). -/
theorem fetch_ok_of_inBootBlock {s : State} {w : Word} (hb : s.inBootBlock) (hf : fetch s = .ok w) :
    aligned s.pc = true ∧ ∃ o, locate s.pc = some (.rom, o) ∧ w = s.regionWord .rom o := by
  obtain ⟨ha, r, o, hl, hr, hw⟩ := memRead_ok hf
  refine ⟨ha, o, ?_⟩
  rcases hr with rfl | rfl
  · obtain ⟨ho, hview⟩ := (locate_eq_some_iff_views s.pc .ram o).mp hl
    rw [inBootBlock_iff] at hb
    simp only [Region.base, Region.size] at ho hview
    omega
  · exact ⟨hl, hw⟩

/-- No handler leaves the 256 MiB block of the program counter it sees: only J writes it, and J keeps the top 4 bits
(R63, R80). -/
theorem exec_pc_block {i : Instr} {s t : State} (h : exec i s = .next t) :
    t.pc.toNat / 2 ^ 28 = s.pc.toNat / 2 ^ 28 := by
  by_cases hj : ∃ target, i = .j target
  · obtain ⟨target, rfl⟩ := hj
    rw [exec_j] at h
    cases h
    rw [setPc_pc, toNat_jumpTarget]
    omega
  · rw [exec_pc_of_not_jump (fun target hi => hj ⟨target, hi⟩) h]

/-- A cycle that fetches ends in the block of the advanced program counter, whatever retires. -/
theorem step_pc_block_of_fetch {s t : State} {w : Word} (hf : fetch s = .ok w) (h : step s = .next t) :
    t.pc.toNat / 2 ^ 28 = (s.pc.toNat + 4) / 2 ^ 28 := by
  rw [← toNat_add_four_of_memRead hf]
  rcases step_cases s with ⟨f, -, e⟩ | ⟨-, f, hf', -⟩ | ⟨-, v, -, -, e⟩ | ⟨-, v, r, -, -, -, e⟩ |
    ⟨-, v, r, i, -, -, -, e⟩
  · cases e.symm.trans h
  · cases hf.symm.trans hf'
  · cases e.symm.trans h; rfl
  · cases e.symm.trans h; rfl
  · exact exec_pc_block (e.symm.trans h)

/-- Every step from the boot block ends in it: a fetch that faults leaves the program counter, and one that succeeds is
from the boot ROM, whose end is inside the block. -/
theorem step_inBootBlock {s t : State} (hb : s.inBootBlock) (h : step s = .next t) : t.inBootBlock := by
  obtain ⟨f, -, rfl⟩ | ⟨w, hf, -⟩ := step_fetch_cases h
  · exact hb
  · obtain ⟨-, o, hl, -⟩ := fetch_ok_of_inBootBlock hb hf
    obtain ⟨ho, hview⟩ := (locate_eq_some_iff_views s.pc .rom o).mp hl
    rw [inBootBlock_iff] at *
    rw [step_pc_block_of_fetch hf h]
    simp only [Region.base, Region.size] at ho hview
    omega

/-- A word inside the boot ROM lies outside main RAM and the scratchpad, so it is among the fixed parts (R45). -/
theorem SameFixedParts.romWord {s t : State} (h : SameFixedParts s t) {o : Nat} (ho : o + 4 ≤ Region.rom.size) :
    t.regionWord .rom o = s.regionWord .rom o := by
  have hbyte (p : Nat) (hp : p < Region.rom.size) :
      t.mem.read (Region.rom.base + p) = s.mem.read (Region.rom.base + p) :=
    h.regionByte (r := .rom) (by decide) (by decide) hp
  simp (disch := omega) only [State.regionWord, Memory.readWord, Nat.add_assoc, hbyte]

/-- Settles O47: the boot block is kept by every step, so by every run; a fetch in it reads the boot ROM, which no run
changes. -/
theorem bootRunsFetchFromTheRomAlone : Obligations.BootRunsFetchFromTheRomAlone := by
  refine ⟨fun _ => (by decide : Config.resetVector.extractLsb' 28 4 = 0xB#4), fun k s t hs h => ?_⟩
  have ht : t.inBootBlock := run_induction (P := State.inBootBlock) (fun _ _ => step_inBootBlock) hs h
  refine ⟨ht, fun w hf => ?_⟩
  obtain ⟨ha, o, hl, hw⟩ := fetch_ok_of_inBootBlock ht hf
  obtain ⟨-, ho⟩ := locate_aligned hl ha
  exact ⟨o, hl, hw.trans ((SameFixedParts.run h).romWord ho)⟩

/-! ### The end of a fetchable region (R124) -/

/-- Settles O39: each of the six addresses is aligned and, by its low 29 bits, in neither fetchable region, so the cycle
ends at its fetch. -/
theorem runningOffARegionFaultsBeforeTheLastWordRetires :
    Obligations.RunningOffARegionFaultsBeforeTheLastWordRetires := by
  intro s hs hpc
  obtain ⟨-, hunmapped, -⟩ := fetchFillsTheSlotOrFaults s hs
  simp only [List.mem_cons, List.not_mem_nil, or_false] at hpc
  exact hunmapped (by omega) (by omega)

/-! ### ROM supply (R112, R119) -/

/-- An image of the contract's length, offered while the slot is empty, is taken. -/
theorem supplyRom_taken {s : State} {image : List Byte} (hlen : image.length = 524288) (hslot : s.slot = .empty) :
    s.supplyRom image = some (s.setMem (s.mem.withRom image)) :=
  if_pos ⟨hlen, hslot⟩

/-- Any other offer is turned away. -/
theorem supplyRom_turnedAway {s : State} {image : List Byte} (h : ¬ (image.length = 524288 ∧ s.slot = .empty)) :
    s.supplyRom image = none :=
  if_neg h

/-- The boot ROM's byte at each offset of a supplied image. -/
theorem regionByte_withRom_rom (s : State) (image : List Byte) (o : Nat) :
    (s.setMem (s.mem.withRom image)).regionByte .rom o = image.getD o 0#8 :=
  read_withRom_rom s.mem image o

/-- Settles O50: an image is taken under the contract alone, and then storage alone changes, from the ROM's base on. -/
theorem romSupplyTakesOnlyExactLengthAndOnlyWithTheSlotEmpty :
    Obligations.RomSupplyTakesOnlyExactLengthAndOnlyWithTheSlotEmpty := by
  refine fun s image => ⟨fun hlen => supplyRom_turnedAway fun h => hlen h.1,
    fun hslot => supplyRom_turnedAway fun h => hslot h.2, fun t h => ?_⟩
  obtain ⟨-, rfl⟩ := supplyRom_eq_some h
  exact ⟨fun _ => rfl, ⟨rfl, rfl, rfl, rfl⟩, rfl, fun _ ha => read_withRom_below s.mem image ha,
    fun o _ => regionByte_withRom_rom s image o⟩

/-! ### The state at reset (R31, R114) -/

/-- Registers 1 to 31 at reset hold what the policy gives them (R17). -/
theorem readReg_resetUnder (policy : GprResetPolicy) {i : Nat} (h1 : 1 ≤ i) (h : i < 32) :
    (State.resetUnder policy).readReg i = Config.gprAtReset policy i := by
  have h0 : i ≠ 0 := by omega
  simp [State.readReg, State.resetUnder, Vector.getD, h0, h]

/-- The storage of every region but the boot ROM lies below it (R29, R34). -/
theorem base_add_lt_romBase {r : Region} {o : Nat} (hr : r ≠ .rom) (ho : o < r.storage) :
    r.base + o < Region.rom.base := by
  cases r with
  | rom => exact absurd rfl hr
  | ram | scratch | hwreg => simp only [Region.base, Region.storage] at *; omega

/-- At reset every byte of main RAM, the scratchpad and the window is 0, whatever image is supplied. -/
theorem regionByte_resetUnder_withRom (policy : GprResetPolicy) (image : List Byte) {r : Region} {o : Nat}
    (hr : r ≠ .rom) (ho : o < r.storage) :
    ((State.resetUnder policy).setMem ((State.resetUnder policy).mem.withRom image)).regionByte r o = 0#8 :=
  read_withRom_below [] image (base_add_lt_romBase hr ho)

/-- Settles O49: the image is taken since the slot is empty at reset, and each field is that of the record of R31. -/
theorem resetStateIsTheSpecsRecord : Obligations.ResetStateIsTheSpecsRecord := by
  refine fun policy image hlen => ⟨_, supplyRom_taken hlen rfl, readReg_zero _, fun i h1 h => ?_, rfl, rfl, rfl, rfl, rfl,
    fun o ho => regionByte_resetUnder_withRom policy image (r := .ram) (by decide) ho,
    fun o ho => regionByte_resetUnder_withRom policy image (r := .scratch) (by decide) ho,
    fun o ho => regionByte_resetUnder_withRom policy image (r := .hwreg) (by decide) ho,
    fun o _ => regionByte_withRom_rom _ image o⟩
  rw [setMem_readReg, readReg_resetUnder policy h1 h]
  exact ⟨fun hp => hp ▸ rfl, fun hp => hp ▸ rfl⟩

end Sys2Proof.Machine
